-- ==== Sys2Proof/Word.lean ====
section
/-! DEFINITION. The widths of the machine (00_scope.md R7, R8), each under the spec's name for what it holds. -/

namespace Sys2Proof

/-- A word: "a 16-bit unsigned value; the unit of memory and the size of an instruction" (WORD_W, R7). -/
abbrev Word := BitVec 16

/-- The operand field `f = IR[11:0]` (OPD_W, R7, R10). -/
abbrev OpField := BitVec 12

/-- The opcode `IR[15:12]` (OPC_W, R7, R49). -/
abbrev OpCode := BitVec 4

/-- A word index 0 to 2047, the address on the memory port: "an 11-bit word index" (70_reset_and_hazards.md R112). -/
abbrev WIdx := BitVec 11

/-- The accumulator, 32 bits in two's complement (ACC_W, 10_state.md R13). -/
abbrev Acc := BitVec 32

/-- The program counter and the loader's pointer, 12 bits unsigned (PC_W, 10_state.md R14, R24). -/
abbrev PcWord := BitVec 12

end Sys2Proof
end

