-- ==== Sys2Proof/Config.lean ====
section
/-! DEFINITION. The implementation parameters of 00_scope.md R7 that are not widths of a type (those are Word.lean's).
None is left open by the spec, so every one has its value here and there is no free value. -/

namespace Sys2Proof.Config

/-- MEM_WORDS: the number of words of memory; valid word indices are 0 to 2047 (R7, 20_memory.md R31). -/
abbrev memWords : Nat := 2048

/-- FLAG_BIT: the position of the addressing-mode flag in an instruction word, mask `0x0800` (R7, 30_encoding.md R51). -/
abbrev flagBit : Nat := 11

/-- IMM_MASK: what the instruction word is masked with to give an immediate (R7, 30_encoding.md R52(b)).
90_conflicts.md C1 resolves the two readings of the source for `0xFFF`; the losing reading is `0x7FF` (log entry 9). -/
def immMask : Word := 0x0FFF

/-- READ stores the input word masked to 12 bits (41_io.md R65). -/
def readMask : Word := 0x0FFF

/-- CODE_BASE and CODE_LEN: the code segment [0,100), a name only (R7, 20_memory.md R32). -/
def codeBase : Nat := 0
def codeLen : Nat := 100

/-- DATA_BASE and DATA_LEN: the data segment [1024,1124), a name only (R7, 20_memory.md R32). -/
def dataBase : Nat := 1024
def dataLen : Nat := 100

/-- RESET_PC: the entry point (R7, 10_state.md R28). -/
def resetPc : PcWord := 0

end Sys2Proof.Config
end

