-- ==== Sys2Proof/Syntax.lean ====
section
/-! DEFINITION. The instructions: one constructor per row of spec/opcode_table.json (30_encoding.md R53), in the table's
order. An operand is the 12-bit operand field `f = IR[11:0]` of 00_scope.md R10, as it stands in the word: halving it (R33)
or masking it (R52) is left to the operand forms of the machine. END, NEG, NOP and HALT ignore the field: "any of the
4096 field values gives the same instruction" (R54), so they carry none (log entry 6). -/

namespace Sys2Proof

/-- An instruction. `…Mem` is the row with mode flag 0, `…Imm` the row with mode flag 1 (30_encoding.md R51). -/
inductive Instr where
  /-- END, opcode 0 (R83). -/
  | endOp
  /-- LOAD, memory form, opcode 1 (R61). -/
  | loadMem (f : OpField)
  /-- LOAD, immediate form, opcode 1 (R61). -/
  | loadImm (f : OpField)
  /-- STORE, opcode 2 (R62). -/
  | store (f : OpField)
  /-- READ, opcode 3 (R65). -/
  | read (f : OpField)
  /-- WRITE, opcode 4 (R66). -/
  | write (f : OpField)
  /-- ADD, memory form, opcode 5 (R72). -/
  | addMem (f : OpField)
  /-- ADD, immediate form, opcode 5 (R72). -/
  | addImm (f : OpField)
  /-- SUB, memory form, opcode 6 (R73). -/
  | subMem (f : OpField)
  /-- SUB, immediate form, opcode 6 (R73). -/
  | subImm (f : OpField)
  /-- MUL, memory form, opcode 7 (R74). -/
  | mulMem (f : OpField)
  /-- MUL, immediate form, opcode 7 (R74). -/
  | mulImm (f : OpField)
  /-- DIV, memory form, opcode 8 (R75). -/
  | divMem (f : OpField)
  /-- DIV, immediate form, opcode 8 (R75). -/
  | divImm (f : OpField)
  /-- MOD, memory form, opcode 9 (R76). -/
  | modMem (f : OpField)
  /-- MOD, immediate form, opcode 9 (R76). -/
  | modImm (f : OpField)
  /-- NEG, opcode 10 (R77). -/
  | neg
  /-- NOP, opcode 11 (R84). -/
  | nop
  /-- JMP, opcode 12 (R80). -/
  | jmp (f : OpField)
  /-- JNEG, opcode 13 (R81). -/
  | jneg (f : OpField)
  /-- JZERO, opcode 14 (R82). -/
  | jzero (f : OpField)
  /-- HALT, opcode 15 (R85). -/
  | halt
deriving DecidableEq, Repr

end Sys2Proof
end

