-- ==== Sys2Proof/WellFormed.lean ====
section
/-! DEFINITION. Which instructions an encoding exists for. The only check is the one of 30_encoding.md R59 on the six
opcodes with two forms: a memory reference needs a byte address of at most `0x7FF` (flag bit clear), an immediate a value
of at least `0x800` (flag bit set). -/

namespace Sys2Proof

/-- The field of a memory form: bit 11 clear (R51, R59). -/
def memFieldOk (f : OpField) : Bool := !f.getLsbD Config.flagBit

/-- The field of an immediate form: bit 11 set (R51, R59). -/
def immFieldOk (f : OpField) : Bool := f.getLsbD Config.flagBit

/-- The instruction is the meaning of some word. -/
def Instr.wellFormed : Instr → Bool
  | .endOp => true
  | .loadMem f => memFieldOk f
  | .loadImm f => immFieldOk f
  | .store _ => true
  | .read _ => true
  | .write _ => true
  | .addMem f => memFieldOk f
  | .addImm f => immFieldOk f
  | .subMem f => memFieldOk f
  | .subImm f => immFieldOk f
  | .mulMem f => memFieldOk f
  | .mulImm f => immFieldOk f
  | .divMem f => memFieldOk f
  | .divImm f => immFieldOk f
  | .modMem f => memFieldOk f
  | .modImm f => immFieldOk f
  | .neg => true
  | .nop => true
  | .jmp _ => true
  | .jneg _ => true
  | .jzero _ => true
  | .halt => true

end Sys2Proof
end

