-- ==== Sys2Proof/Decode.lean ====
section
/-! DEFINITION. Decode and encode (30_encoding.md). The decoder is total and refuses nothing: "every one of the 65536 words
decodes to exactly one instruction" (R55). -/

namespace Sys2Proof

/-- `opc = IR[15:12]` (R49). -/
def opcodeField (w : Word) : OpCode := w.extractLsb' 12 4

/-- `f = IR[11:0] = IR & 0xFFF` (R50): not sign-extended, not scaled, not shifted. -/
def operandField (w : Word) : OpField := w.extractLsb' 0 12

/-- `m = IR[11]`: 0 = memory operand, 1 = immediate operand (R51, 90_conflicts.md C7). -/
def modeFlag (w : Word) : Bool := w.getLsbD Config.flagBit

/-- Decode (R53). The mode flag is looked at by opcodes 1 and 5 to 9 only (R51); for the others with an operand bit 11 is an
address bit. The last arm is opcode 15, the only value left of the 4-bit field. -/
def decode (w : Word) : Instr :=
  let f := operandField w
  let m := modeFlag w
  match (opcodeField w).toNat with
  | 0 => .endOp
  | 1 => if m then .loadImm f else .loadMem f
  | 2 => .store f
  | 3 => .read f
  | 4 => .write f
  | 5 => if m then .addImm f else .addMem f
  | 6 => if m then .subImm f else .subMem f
  | 7 => if m then .mulImm f else .mulMem f
  | 8 => if m then .divImm f else .divMem f
  | 9 => if m then .modImm f else .modMem f
  | 10 => .neg
  | 11 => .nop
  | 12 => .jmp f
  | 13 => .jneg f
  | 14 => .jzero f
  | _ => .halt

/-- The opcode number of an instruction (R53). -/
def Instr.opcode : Instr → OpCode
  | .endOp => 0
  | .loadMem _ => 1
  | .loadImm _ => 1
  | .store _ => 2
  | .read _ => 3
  | .write _ => 4
  | .addMem _ => 5
  | .addImm _ => 5
  | .subMem _ => 6
  | .subImm _ => 6
  | .mulMem _ => 7
  | .mulImm _ => 7
  | .divMem _ => 8
  | .divImm _ => 8
  | .modMem _ => 9
  | .modImm _ => 9
  | .neg => 10
  | .nop => 11
  | .jmp _ => 12
  | .jneg _ => 13
  | .jzero _ => 14
  | .halt => 15

/-- The operand field of an instruction's word; the four instructions without an operand are encoded with `f = 0` (R59). -/
def Instr.field : Instr → OpField
  | .endOp => 0
  | .loadMem f => f
  | .loadImm f => f
  | .store f => f
  | .read f => f
  | .write f => f
  | .addMem f => f
  | .addImm f => f
  | .subMem f => f
  | .subImm f => f
  | .mulMem f => f
  | .mulImm f => f
  | .divMem f => f
  | .divImm f => f
  | .modMem f => f
  | .modImm f => f
  | .neg => 0
  | .nop => 0
  | .jmp f => f
  | .jneg f => f
  | .jzero f => f
  | .halt => 0

/-- `word = (opc << 12) | f` (R60). -/
def wordOf (opc : OpCode) (f : OpField) : Word := (opc.setWidth 16 <<< 12) ||| f.setWidth 16

/-- Encode (R60): the one word of a well-formed instruction. -/
def encode (i : Instr) : Word := wordOf i.opcode i.field

/-- The `mask` column of the opcode map (R53). -/
def Instr.rowMask : Instr → Word
  | .endOp => 0xF000
  | .loadMem _ => 0xF800
  | .loadImm _ => 0xF800
  | .store _ => 0xF000
  | .read _ => 0xF000
  | .write _ => 0xF000
  | .addMem _ => 0xF800
  | .addImm _ => 0xF800
  | .subMem _ => 0xF800
  | .subImm _ => 0xF800
  | .mulMem _ => 0xF800
  | .mulImm _ => 0xF800
  | .divMem _ => 0xF800
  | .divImm _ => 0xF800
  | .modMem _ => 0xF800
  | .modImm _ => 0xF800
  | .neg => 0xF000
  | .nop => 0xF000
  | .jmp _ => 0xF000
  | .jneg _ => 0xF000
  | .jzero _ => 0xF000
  | .halt => 0xF000

/-- The `match` column of the opcode map (R53): a word `w` is the instruction when `w & mask == match`. -/
def Instr.rowMatch : Instr → Word
  | .endOp => 0x0000
  | .loadMem _ => 0x1000
  | .loadImm _ => 0x1800
  | .store _ => 0x2000
  | .read _ => 0x3000
  | .write _ => 0x4000
  | .addMem _ => 0x5000
  | .addImm _ => 0x5800
  | .subMem _ => 0x6000
  | .subImm _ => 0x6800
  | .mulMem _ => 0x7000
  | .mulImm _ => 0x7800
  | .divMem _ => 0x8000
  | .divImm _ => 0x8800
  | .modMem _ => 0x9000
  | .modImm _ => 0x9800
  | .neg => 0xA000
  | .nop => 0xB000
  | .jmp _ => 0xC000
  | .jneg _ => 0xD000
  | .jzero _ => 0xE000
  | .halt => 0xF000

/-- The instruction the decoder reads from a table row's word: an instruction is one 16-bit word (R47), so a row of any other
number of bits, or a number that does not fit in 16 bits, is no instruction. -/
def decodeTableWord (nbits w : Nat) : Option Instr :=
  if nbits = 16 ∧ w < 2 ^ 16 then some (decode (BitVec.ofNat 16 w)) else none

end Sys2Proof
end

