-- ==== Sys2Proof/Machine/State.lean ====
section
/-! DEFINITION. The state record of 10_state.md as plain data, its reset values (R28), and the reasons `step` can stop. -/

namespace Sys2Proof.Machine

/-- PHASE (10_state.md R21). Its 2-bit encoding is `Phase.code`. -/
inductive Phase where
  | load
  | run
  | halted
  | fault
deriving DecidableEq, Repr

/-- FCAUSE (10_state.md R22, 60_exceptions.md R87). Its 3-bit encoding is `FCause.code`; the codes 6 and 7 "are never
written" and have no constructor. -/
inductive FCause where
  | none
  | fetchRange
  | divZero
  | accOverflow
  | inputExhausted
  | loadOverflow
deriving DecidableEq, Repr

/-- MEM: the words that differ from what an unlisted index reads as, as (word index, word) pairs. The canonical form is
`Memory.wf` (log entry 2). -/
abbrev Memory := List (Nat × Word)

/-- The whole state (the table at the head of 10_state.md). -/
structure State where
  /-- ACC, the accumulator (R13). -/
  acc : Acc
  /-- PC, the word index of the instruction being executed (R14). -/
  pc : PcWord
  /-- IR, the last word fetched (R16). -/
  ir : Word
  /-- OPC, the last decoded opcode (R17). -/
  opc : OpCode
  /-- OPD, the last decoded operand field, flag bit included (R18). -/
  opd : OpField
  /-- PHASE (R21). -/
  phase : Phase
  /-- FCAUSE (R22). -/
  fcause : FCause
  /-- LDPTR, the loader's next free word index (R24). -/
  ldptr : PcWord
  /-- MEM, 2048 words of 16 bits (R27). -/
  mem : Memory
  /-- IN, the words of the input not yet consumed (R25). -/
  input : List Word
  /-- OUT, the values written so far, oldest first (R26). -/
  output : List Word
deriving DecidableEq, Repr

/-- Why a step is not taken. No instruction answers with one: the five fault stops of 60_exceptions.md are next states
(PHASE = FAULT), and these two say only that no step is enabled. -/
inductive Fault where
  /-- Raised by `step` in PHASE = HALTED: the run is over and "the unit has no enabled step"
  (70_reset_and_hazards.md R106). Safe: the unit takes no step either. -/
  | noStepHalted
  /-- Raised by `step` in PHASE = FAULT, with the cause the fault stop left in FCAUSE: "the unit has no enabled step"
  (R106). Safe: the unit takes no step either. -/
  | noStepFault (cause : FCause)
deriving DecidableEq, Repr

/-- Why an instruction has no meaning in the model. -/
inductive Refusal where
  /-- Raised by `exec` alone, for an instruction without a meaning; no arm of this model uses it. Safe: it stops. -/
  | notModelled (mnemonic : String)
deriving DecidableEq, Repr

/-- The outcome of a meaning or of a step. -/
abbrev Result := Host.Outcome State Fault Refusal

/-- The state right after a reset with the whole input sequence of the run (10_state.md R28, 70_reset_and_hazards.md R100). -/
def State.resetWith (input : List Word) : State where
  acc := 0
  pc := Config.resetPc
  ir := 0
  opc := 0
  opd := 0
  phase := .load
  fcause := .none
  ldptr := 0
  mem := []
  input := input
  output := []

/-- The machine right after reset. The spec's reset takes the host's input sequence; this constant is the reset with the
empty one, a DESIGN CHOICE of the model (log entry 1). -/
def State.reset : State := State.resetWith []

end Sys2Proof.Machine
end

