-- ==== Sys2Proof/Machine/Ops.lean ====
section
/-! DEFINITION. The named operations over memory, registers and channels (00_scope.md R9), the fault-stop entry
(60_exceptions.md R88) and reset (70_reset_and_hazards.md R100). There is no return from a fault stop (R97): the only way
out is reset, which stands beside the entry. -/

namespace Sys2Proof.Machine

/-- What a word of memory that nothing has written reads as (10_state.md R28). -/
def Memory.unlisted : Word := 0

/-- The word at an index. -/
def Memory.read (m : Memory) (a : Nat) : Word :=
  match m with
  | [] => Memory.unlisted
  | c :: rest => if c.1 = a then c.2 else Memory.read rest a

/-- The memory with nothing listed at an index. -/
def Memory.erase (m : Memory) (a : Nat) : Memory := m.filter (fun c => c.1 != a)

/-- The memory with one more entry, in its place by index. -/
def Memory.insert (m : Memory) (a : Nat) (v : Word) : Memory :=
  match m with
  | [] => [(a, v)]
  | c :: rest => if a < c.1 then (a, v) :: c :: rest else c :: Memory.insert rest a v

/-- Replace the word at an index. Writing what an unlisted index reads as leaves the index unlisted. -/
def Memory.write (m : Memory) (a : Nat) (v : Word) : Memory :=
  if v = Memory.unlisted then Memory.erase m a else Memory.insert (Memory.erase m a) a v

/-- The canonical form: indices strictly rising and below MEM_WORDS, no entry equal to what an unlisted index reads as. -/
abbrev Memory.wf (m : Memory) : Prop :=
  m.Pairwise (fun c d => c.1 < d.1) ∧ ∀ c ∈ m, c.1 < Config.memWords ∧ c.2 ≠ Memory.unlisted

/-- `MemRead(i, 16)` (00_scope.md R9). -/
def State.memRead (s : State) (i : WIdx) : Word := Memory.read s.mem i.toNat

/-- `MemWrite(i, 16, v)` (00_scope.md R9). -/
def State.memWrite (s : State) (i : WIdx) (v : Word) : State := { s with mem := Memory.write s.mem i.toNat v }

/-- `ACC <- v`. -/
def State.setAcc (s : State) (v : Acc) : State := { s with acc := v }

/-- `PC <- v`. -/
def State.setPc (s : State) (v : PcWord) : State := { s with pc := v }

/-- `PC <- PC + 1` (10_state.md R15): no wrap at 2047, whose successor 2048 the 12 bits hold. -/
def State.advancePc (s : State) : State := s.setPc (s.pc + 1)

/-- `PHASE <- p`. -/
def State.setPhase (s : State) (p : Phase) : State := { s with phase := p }

/-- `LDPTR <- v`. -/
def State.setLdptr (s : State) (v : PcWord) : State := { s with ldptr := v }

/-- `IN <- rest`. -/
def State.setInput (s : State) (rest : List Word) : State := { s with input := rest }

/-- `InPop()`: the first word of IN and the state without it; none where `InAtEnd()` is true (00_scope.md R9). -/
def State.inPop? (s : State) : Option (Word × State) :=
  match s.input with
  | [] => none
  | w :: rest => some (w, s.setInput rest)

/-- `OutPush(v)` (00_scope.md R9, 10_state.md R26): oldest first. -/
def State.outPush (s : State) (v : Word) : State := { s with output := s.output ++ [v] }

/-- Fault-stop entry, `raise Fault(c)`: "It writes exactly two things, FCAUSE and PHASE, and ends the step"
(60_exceptions.md R88). It is the one way an exception is taken on this machine. -/
def State.raiseFault (s : State) (c : FCause) : State := { s with fcause := c, phase := .fault }

/-- Reset, the host's one control (70_reset_and_hazards.md R100): it may be applied in any phase and discards all state. -/
def State.hostReset (_s : State) (input : List Word) : State := State.resetWith input

/-- The encoding of PHASE (10_state.md R21). -/
def Phase.code : Phase → BitVec 2
  | .load => 0
  | .run => 1
  | .halted => 2
  | .fault => 3

/-- The codes of FCAUSE (60_exceptions.md R87). -/
def FCause.code : FCause → BitVec 3
  | .none => 0
  | .fetchRange => 1
  | .divZero => 2
  | .accOverflow => 3
  | .inputExhausted => 4
  | .loadOverflow => 5

end Sys2Proof.Machine
end

