-- ==== Sys2Proof/Machine/Operands.lean ====
section
/-! DEFINITION. The three values formed from an operand field (30_encoding.md R52) and the narrowing of the accumulator. -/

namespace Sys2Proof.Machine

/-- `widx(f) = f >> 1`: a byte address to a word index, the whole 12-bit field halved (20_memory.md R33). An odd field names
the same word as the even one below it (R36). -/
def widx (f : OpField) : WIdx := (f >>> 1).setWidth 11

/-- A jump target: the same halving, as a value of PC (43_control_transfer.md R79). -/
def target (f : OpField) : PcWord := f >>> 1

/-- `imm = IR & IMM_MASK`, the whole operand field under `IMM_MASK = 0xFFF` (30_encoding.md R52(b)). -/
def srcImm (f : OpField) : Word := f.setWidth 16 &&& Config.immMask

/-- The memory-mode source operand `MemRead(f >> 1, 16)` (30_encoding.md R52(c)). -/
def srcMem (s : State) (f : OpField) : Word := s.memRead (widx f)

/-- `zext_32` of a word (00_scope.md R8): a memory word is unsigned (20_memory.md R37). -/
def zext32 (v : Word) : Acc := v.setWidth 32

/-- `trunc16(ACC)`, the low 16 bits of the two's complement form (00_scope.md R8, 40_load_store.md R62). -/
def trunc16 (v : Acc) : Word := v.setWidth 16

end Sys2Proof.Machine
end

