-- ==== Sys2Proof/Machine/Flags.lean ====
section
/-! DEFINITION. The machine has no flags (10_state.md R20). What stands in their place: the two tests of the conditional
jumps, each over all 32 bits of the accumulator, and the range test of the ALU (42_arithmetic.md R69). -/

namespace Sys2Proof.Machine

/-- The condition of JNEG: `ACC < 0` (10_state.md R20, 43_control_transfer.md R81). -/
def State.accNegative (s : State) : Bool := decide (s.acc.toInt < 0)

/-- The condition of JZERO: `ACC == 0`, all 32 bits zero (10_state.md R20, 43_control_transfer.md R82). -/
def State.accZero (s : State) : Bool := decide (s.acc = 0)

/-- `s32(r)`: the exact result lies in -2^31 .. 2^31 - 1 (00_scope.md R8). -/
def s32 (r : Int) : Bool := decide (-2147483648 ≤ r ∧ r ≤ 2147483647)

end Sys2Proof.Machine
end

