-- ==== Sys2Proof/Machine/Arithmetic.lean ====
section
/-! DEFINITION. ADD, SUB, MUL, DIV, MOD, NEG (42_arithmetic.md). The result is computed exactly over the integers and narrowed
in one place; the source operand is never negative (R68). -/

namespace Sys2Proof.Machine

/-- The end of ADD, SUB, MUL and NEG (R69): an exact result that fits goes to ACC and PC advances; one that does not raises
ACC_OVERFLOW and writes nothing. -/
def finishChecked (r : Int) (s : State) : Result :=
  if s32 r then .next (s.setAcc (BitVec.ofInt 32 r)).advancePc else .next (s.raiseFault .accOverflow)

/-- The end of DIV and MOD (R70): a zero divisor raises DIV_ZERO and writes nothing; otherwise the result, which cannot
overflow (R69), goes to ACC and PC advances. -/
def finishDivision (src : Word) (r : Int) (s : State) : Result :=
  if src = 0 then .next (s.raiseFault .divZero) else .next (s.setAcc (BitVec.ofInt 32 r)).advancePc

/-- `ACC + src` (R72). -/
def addSrc (src : Word) (s : State) : Result := finishChecked (s.acc.toInt + src.toNat) s

/-- `ACC - src` (R73). -/
def subSrc (src : Word) (s : State) : Result := finishChecked (s.acc.toInt - src.toNat) s

/-- `ACC * src` (R74). -/
def mulSrc (src : Word) (s : State) : Result := finishChecked (s.acc.toInt * src.toNat) s

/-- `ACC / src`, truncated toward zero (R70, R75). -/
def divSrc (src : Word) (s : State) : Result := finishDivision src (Int.tdiv s.acc.toInt src.toNat) s

/-- `ACC rem src`, with the sign of ACC (R70, R76). -/
def modSrc (src : Word) (s : State) : Result := finishDivision src (Int.tmod s.acc.toInt src.toNat) s

/-- ADD, memory form (R72). -/
def execAddMem (f : OpField) (s : State) : Result := addSrc (srcMem s f) s

/-- ADD, immediate form (R72). -/
def execAddImm (f : OpField) (s : State) : Result := addSrc (srcImm f) s

/-- SUB, memory form (R73). -/
def execSubMem (f : OpField) (s : State) : Result := subSrc (srcMem s f) s

/-- SUB, immediate form (R73). -/
def execSubImm (f : OpField) (s : State) : Result := subSrc (srcImm f) s

/-- MUL, memory form (R74). -/
def execMulMem (f : OpField) (s : State) : Result := mulSrc (srcMem s f) s

/-- MUL, immediate form (R74). -/
def execMulImm (f : OpField) (s : State) : Result := mulSrc (srcImm f) s

/-- DIV, memory form (R75). -/
def execDivMem (f : OpField) (s : State) : Result := divSrc (srcMem s f) s

/-- DIV, immediate form (R75). -/
def execDivImm (f : OpField) (s : State) : Result := divSrc (srcImm f) s

/-- MOD, memory form (R76). -/
def execModMem (f : OpField) (s : State) : Result := modSrc (srcMem s f) s

/-- MOD, immediate form (R76). -/
def execModImm (f : OpField) (s : State) : Result := modSrc (srcImm f) s

/-- NEG (R77): `0 - ACC`, which overflows for -2147483648 alone. -/
def execNeg (s : State) : Result := finishChecked (0 - s.acc.toInt) s

end Sys2Proof.Machine
end

