-- ==== Sys2Proof/Machine/Control.lean ====
section
/-! DEFINITION. JMP, JNEG, JZERO (43_control_transfer.md): absolute targets, no link, no delay slot, no fault (R79). -/

namespace Sys2Proof.Machine

/-- A jump on a condition: to `f >> 1` where it holds, else to `PC + 1` (R81, R82). -/
def jumpIf (cond : Bool) (f : OpField) (s : State) : Result :=
  if cond then .next (s.setPc (target f)) else .next s.advancePc

/-- JMP (R80): `PC <- f >> 1`. -/
def execJmp (f : OpField) (s : State) : Result := .next (s.setPc (target f))

/-- JNEG (R81). -/
def execJneg (f : OpField) (s : State) : Result := jumpIf s.accNegative f s

/-- JZERO (R82). -/
def execJzero (f : OpField) (s : State) : Result := jumpIf s.accZero f s

end Sys2Proof.Machine
end

