-- ==== Sys2Proof/Machine/InOut.lean ====
section
/-! DEFINITION. READ and WRITE (41_io.md). -/

namespace Sys2Proof.Machine

/-- READ (R65): with no word left, the fault stop INPUT_EXHAUSTED and nothing else; otherwise the low 12 bits of the first
word of IN go to `MEM[f >> 1]` and PC advances. -/
def execRead (f : OpField) (s : State) : Result :=
  match s.inPop? with
  | none => .next (s.raiseFault .inputExhausted)
  | some (w, s') => .next (s'.memWrite (widx f) (w &&& Config.readMask)).advancePc

/-- WRITE (R66): `OutPush(MemRead(f >> 1, 16)); PC <- PC + 1`. It emits the memory word, never ACC (90_conflicts.md C4). -/
def execWrite (f : OpField) (s : State) : Result := .next (s.outPush (s.memRead (widx f))).advancePc

end Sys2Proof.Machine
end

