-- ==== Sys2Proof/Machine/LoadStore.lean ====
section
/-! DEFINITION. LOAD and STORE (40_load_store.md). A meaning is the execute stage of one run step: the fetch and the latching
of IR, OPC and OPD have happened (70_reset_and_hazards.md R104). -/

namespace Sys2Proof.Machine

/-- The accumulator takes a zero-extended source word and PC advances: shared by both forms of LOAD (R61). -/
def loadAcc (src : Word) (s : State) : Result := .next (s.setAcc (zext32 src)).advancePc

/-- LOAD, memory form (R61): `ACC <- zext_32(MemRead(f >> 1, 16)); PC <- PC + 1`. -/
def execLoadMem (f : OpField) (s : State) : Result := loadAcc (srcMem s f) s

/-- LOAD, immediate form (R61): `ACC <- zext_32(IR & IMM_MASK); PC <- PC + 1`. -/
def execLoadImm (f : OpField) (s : State) : Result := loadAcc (srcImm f) s

/-- STORE (R62): `MemWrite(f >> 1, 16, trunc16(ACC)); PC <- PC + 1`. -/
def execStore (f : OpField) (s : State) : Result := .next (s.memWrite (widx f) (trunc16 s.acc)).advancePc

end Sys2Proof.Machine
end

