-- ==== Sys2Proof/Machine/System.lean ====
section
/-! DEFINITION. END, NOP, HALT (44_nop_end_halt.md). -/

namespace Sys2Proof.Machine

/-- END (R83): `PC <- PC + 1`. In the run phase it stops nothing (90_conflicts.md C5). -/
def execEnd (s : State) : Result := .next s.advancePc

/-- NOP (R84): `PC <- PC + 1`. -/
def execNop (s : State) : Result := .next s.advancePc

/-- HALT (R85): `PHASE <- HALTED`, the halt test at the end of the step; PC is not written (90_conflicts.md C2). -/
def execHalt (s : State) : Result := .next (s.setPhase .halted)

end Sys2Proof.Machine
end

