-- ==== Sys2Proof/Machine/Dispatch.lean ====
section
/-! DEFINITION. The opcode dispatch multiplexer (30_encoding.md R57): one arm per row of the opcode table. -/

namespace Sys2Proof.Machine

def exec (i : Instr) (s : State) : Host.Outcome State Fault Refusal :=
  match i with
  | .endOp => Sys2Proof.Machine.execEnd s
  | .loadMem f => Sys2Proof.Machine.execLoadMem f s
  | .loadImm f => Sys2Proof.Machine.execLoadImm f s
  | .store f => Sys2Proof.Machine.execStore f s
  | .read f => Sys2Proof.Machine.execRead f s
  | .write f => Sys2Proof.Machine.execWrite f s
  | .addMem f => Sys2Proof.Machine.execAddMem f s
  | .addImm f => Sys2Proof.Machine.execAddImm f s
  | .subMem f => Sys2Proof.Machine.execSubMem f s
  | .subImm f => Sys2Proof.Machine.execSubImm f s
  | .mulMem f => Sys2Proof.Machine.execMulMem f s
  | .mulImm f => Sys2Proof.Machine.execMulImm f s
  | .divMem f => Sys2Proof.Machine.execDivMem f s
  | .divImm f => Sys2Proof.Machine.execDivImm f s
  | .modMem f => Sys2Proof.Machine.execModMem f s
  | .modImm f => Sys2Proof.Machine.execModImm f s
  | .neg => Sys2Proof.Machine.execNeg s
  | .nop => Sys2Proof.Machine.execNop s
  | .jmp f => Sys2Proof.Machine.execJmp f s
  | .jneg f => Sys2Proof.Machine.execJneg f s
  | .jzero f => Sys2Proof.Machine.execJzero f s
  | .halt => Sys2Proof.Machine.execHalt s

end Sys2Proof.Machine
end

