-- ==== Sys2Proof/Machine/Cycle.lean ====
section
/-! DEFINITION. The loader step and the run step (70_reset_and_hazards.md R102, R104), and the placing of one word where the
next fetch reads it. -/

namespace Sys2Proof.Machine

/-- PC is the index of a word: the range check of part 0 of the run step (R104, 60_exceptions.md R90). -/
def State.pcInRange (s : State) : Bool := decide (s.pc.toNat < Config.memWords)

/-- PC as a word index (only where it is in range). -/
def State.pcIndex (s : State) : WIdx := s.pc.setWidth 11

/-- `MemRead(PC, 16)`: the fetch reads the one memory, with no prefetch (20_memory.md R46). -/
def State.fetchWord (s : State) : Word := s.memRead s.pcIndex

/-- Parts 1 and 2 of the run step: `IR <- w; OPC <- IR[15:12]; OPD <- IR[11:0]` (R104). -/
def State.latch (s : State) (w : Word) : State := { s with ir := w, opc := opcodeField w, opd := operandField w }

/-- The run step (R104): range check, fetch, decode, execute. The halt test of its part 4 is in the meaning of HALT (R85). -/
def runStep (s : State) : Result :=
  if s.pcInRange then exec (decode s.fetchWord) (s.latch s.fetchWord) else .next (s.raiseFault .fetchRange)

/-- The next free word index of the loader (only where LDPTR is below 2048). -/
def State.ldIndex (s : State) : WIdx := s.ldptr.setWidth 11

/-- The loader step (R102). The full-memory test is `LDPTR >= 2048`, which is the rule's `LDPTR == 2048` in every state a run
reaches (log entry 5). The test for the sentinel is on the whole word (90_conflicts.md C3). -/
def loaderStep (s : State) : Result :=
  match s.inPop? with
  | none => .next (s.setPhase .run)
  | some (w, s') =>
    if Config.memWords ≤ s.ldptr.toNat then .next (s.raiseFault .loadOverflow)
    else
      let s'' := (s'.memWrite s.ldIndex w).setLdptr (s.ldptr + 1)
      .next (if w = 0 then s''.setPhase .run else s'')

/-- The state with a word stored where its next step fetches, as if the loader had placed it and handed over: PHASE is RUN, and
PC stays where it is a word index and is 0 where it is not. -/
def State.placeNext (s : State) (w : Word) : State :=
  let s' := (if s.pcInRange then s else s.setPc Config.resetPc).setPhase .run
  s'.memWrite s'.pcIndex w

end Sys2Proof.Machine
end

