-- ==== Sys2Proof/Machine/Step.lean ====
section
/-! DEFINITION. One step of the unit, the state machine over PHASE (70_reset_and_hazards.md R101). -/

namespace Sys2Proof.Machine

/-- In LOAD a loader step, in RUN a run step; in HALTED and FAULT no step is enabled (R101, R106; log entry 3). -/
def step (s : State) : Host.Outcome State Fault Refusal :=
  match s.phase with
  | .load => loaderStep s
  | .run => runStep s
  | .halted => .fault .noStepHalted
  | .fault => .fault (.noStepFault s.fcause)

/-- `s` with the instruction of a table row stored where `step` fetches next: the low `nbits` bits of `w` as one word, the
bits above zero (log entry 1 says what this stands for). -/
def State.withFetchWord (s : State) (nbits w : Nat) : State := s.placeNext (BitVec.ofNat 16 (w % 2 ^ nbits))

end Sys2Proof.Machine
end

