-- ==== Sys2Proof/Machine/Boundary.lean ====
section
/-! DEFINITION. What the spec fixes of the unit's boundary (00_scope.md R5): the Word Decoder, the line of WRITE, what the
host may read and when, and the data of the dump. None of it is called by `step`. -/

namespace Sys2Proof.Machine

/-- The Word Decoder's sum over the characters, most significant first: a character that is not `1` counts as 0
(41_io.md R63). -/
def tokenValue (token : List Char) : Nat := token.foldl (fun n c => 2 * n + if c = '1' then 1 else 0) 0

/-- The Word Decoder (41_io.md R63): a token of 16 characters gives its word. A token of any other length gives none: the host
delivers no word for it (92_eei_decisions.md D19). -/
def wordOfToken (token : List Char) : Option Word :=
  if token.length = 16 then some (BitVec.ofNat 16 (tokenValue token)) else none

/-- The token of a word: its 16 binary digits, most significant first (30_encoding.md R58, R60). -/
def tokenOfWord (v : Word) : List Char := (List.range 16).map (fun i => if v.getLsbD (15 - i) then '1' else '0')

/-- IN at reset from the tokens of a run: the host "refuses a run whose input holds any other token" (D19). -/
def inputOfTokens (tokens : List (List Char)) : Option (List Word) := tokens.mapM wordOfToken

/-- The line of one executed WRITE: the decimal digits of the unsigned value, then a newline (41_io.md R67). -/
def outputLine (v : Word) : List Char := Nat.toDigits 10 v.toNat ++ ['\n']

/-- What the host sees at any time: PHASE, FCAUSE and OUT (10_state.md R29, 70_reset_and_hazards.md R112). -/
structure Status where
  phase : BitVec 2
  fcause : BitVec 3
  output : List Word
deriving DecidableEq, Repr

def State.status (s : State) : Status := ⟨s.phase.code, s.fcause.code, s.output⟩

/-- What the observation interface carries: ACC, PC, IR, OPC, OPD and the memory (70_reset_and_hazards.md R112, 10_state.md
R29). -/
structure Observation where
  acc : Acc
  pc : PcWord
  ir : Word
  opc : OpCode
  opd : OpField
  words : Memory
deriving DecidableEq, Repr

/-- The observation interface: open in HALTED and in FAULT only (10_state.md R29, 70_reset_and_hazards.md R112). -/
def State.observe (s : State) : Option Observation :=
  match s.phase with
  | .load => none
  | .run => none
  | .halted => some ⟨s.acc, s.pc, s.ir, s.opc, s.opd, s.mem⟩
  | .fault => some ⟨s.acc, s.pc, s.ir, s.opc, s.opd, s.mem⟩

/-- All that the host reads after the stop: "every register and every memory word" (00_scope.md R12(c)), so the status registers
and LDPTR beside what the observation interface lists (log entry 13). -/
structure FinalState where
  observation : Observation
  status : Status
  ldptr : PcWord
deriving DecidableEq, Repr

/-- The host's reading of the whole final state, possible where the observation interface is open: in HALTED and in FAULT
(00_scope.md R12(c), 92_eei_decisions.md D21). -/
def State.readFinal (s : State) : Option FinalState := s.observe.map fun o => ⟨o, s.status, s.ldptr⟩

/-- One segment of the dump: rows of ten bytes, each word "truncated to its low 8 bits" (70_reset_and_hazards.md R111). -/
def dumpSegment (words : Memory) (base : Nat) : List (List (BitVec 8)) :=
  (List.range 10).map fun row => (List.range 10).map fun col =>
    (Memory.read words (base + 10 * row + col)).setWidth 8

/-- The data of the dump's two segments, in its order: code, then data (70_reset_and_hazards.md R111). The text around the
bytes, and how a wide accumulator is shown, the source does not fix (91_not_in_source.md N12). -/
def Observation.dumpBytes (o : Observation) : List (List (BitVec 8)) × List (List (BitVec 8)) :=
  (dumpSegment o.words Config.codeBase, dumpSegment o.words Config.dataBase)

end Sys2Proof.Machine
end

