-- ==== Sys2Proof/Safety.lean ====
section
/-! DEFINITION. What the end of a run is (70_reset_and_hazards.md R105), and the invariant of the machine in the terms the
statements use. -/

namespace Sys2Proof.Machine

/-- "A run is over when PHASE is HALTED or FAULT, and only then" (R105). -/
abbrev State.runOver (s : State) : Prop := s.phase = .halted ∨ s.phase = .fault

/-- A normal end (R105). -/
abbrev State.normalEnd (s : State) : Prop := s.phase = .halted

/-- PC is the index of the word in IR: the instruction that ended the run (60_exceptions.md R89, 10_state.md R29). -/
abbrev State.stoppedAtInstruction (s : State) : Prop := s.pc.toNat < Config.memWords ∧ s.fetchWord = s.ir

/-- What the state of a fault stop shows of its cause (60_exceptions.md R89 to R94). -/
abbrev State.faultEvidence (s : State) : Prop :=
  match s.fcause with
  | .none => False
  | .fetchRange => s.pc.toNat = Config.memWords
  | .divZero => s.stoppedAtInstruction ∧ (s.opc = 8 ∨ s.opc = 9) ∧ s.opd.getLsbD Config.flagBit = false
      ∧ s.memRead (widx s.opd) = 0
  | .accOverflow => s.stoppedAtInstruction ∧ (s.opc = 5 ∨ s.opc = 6 ∨ s.opc = 7 ∨ s.opc = 10)
  | .inputExhausted => s.stoppedAtInstruction ∧ s.opc = 3 ∧ s.input = []
  | .loadOverflow => s.ldptr.toNat = Config.memWords ∧ s.input ≠ [] ∧ s.pc = Config.resetPc

/-- What holds of every state between two steps of a run. -/
structure State.Inv (s : State) : Prop where
  /-- The memory is in its canonical form (log entry 2). -/
  memory : Memory.wf s.mem
  /-- OPC and OPD are the two parts of IR (10_state.md R19). -/
  latched : s.opc = opcodeField s.ir ∧ s.opd = operandField s.ir
  /-- FCAUSE is 0 in every phase but FAULT (10_state.md R22). -/
  cause : s.fcause = .none ↔ s.phase ≠ .fault
  /-- PC is 0 to 2048 (10_state.md R15). -/
  pcRange : s.pc.toNat ≤ Config.memWords
  /-- LDPTR is 0 to 2048 (10_state.md R24). -/
  ldptrRange : s.ldptr.toNat ≤ Config.memWords
  /-- While loading, the registers are at reset, nothing is written out, and no word at or above LDPTR has been written
  (70_reset_and_hazards.md R102). -/
  loading : s.phase = .load → s.acc = 0 ∧ s.pc = Config.resetPc ∧ s.ir = 0 ∧ s.output = []
      ∧ ∀ i : WIdx, s.ldptr.toNat ≤ i.toNat → s.memRead i = 0
  /-- In HALTED, the unit stands at the HALT word (10_state.md R29, 44_nop_end_halt.md R85). -/
  halted : s.phase = .halted → s.opc = 15 ∧ s.stoppedAtInstruction
  /-- In FAULT, the state shows the cause (60_exceptions.md R89 to R94). -/
  faulted : s.phase = .fault → s.faultEvidence

end Sys2Proof.Machine
end

