-- ==== Sys2Proof/Certificates/Slice0/Obligations.lean ====
section
/-! DEFINITION. The statements for the provers. The terms they share come first, under `Sys2Proof.Claims`; then one
`Obligations.<Name>` each, with the rule of the spec it formalises. -/

open Sys2Proof Sys2Proof.Machine

/-- The instruction answers a next state in which ACC holds the integer `r`, PC is one more, and nothing else differs. -/
def Sys2Proof.Claims.AccBecomes (o : Result) (s : State) (r : Int) : Prop :=
  ∃ t, o = .next t ∧ t.acc.toInt = r ∧ t = { s with acc := t.acc, pc := s.pc + 1 }

/-- The instruction takes the fault stop `c`: PHASE and FCAUSE are written and nothing else (60_exceptions.md R88). -/
def Sys2Proof.Claims.FaultStops (o : Result) (s : State) (c : FCause) : Prop :=
  o = .next { s with phase := .fault, fcause := c }

/-- The range of the accumulator (10_state.md R13). -/
def Sys2Proof.Claims.InRange (r : Int) : Prop := -2147483648 ≤ r ∧ r ≤ 2147483647

/-- An exact result goes to ACC where it fits, and raises ACC_OVERFLOW where it does not (42_arithmetic.md R69). -/
def Sys2Proof.Claims.Checked (o : Result) (s : State) (r : Int) : Prop :=
  (Claims.InRange r → Claims.AccBecomes o s r) ∧ (¬ Claims.InRange r → Claims.FaultStops o s .accOverflow)

/-- `q` and `r` are the quotient of `n` by `d` truncated toward zero and its remainder, which has the sign of `n` or is zero
and a magnitude below `d` (42_arithmetic.md R70). -/
def Sys2Proof.Claims.TruncatedDivision (n d q r : Int) : Prop :=
  n = q * d + r ∧ -d < r ∧ r < d ∧ (0 ≤ n → 0 ≤ r) ∧ (n ≤ 0 → r ≤ 0)

/-- PC becomes half the operand field, and nothing else differs (43_control_transfer.md R79). -/
def Sys2Proof.Claims.JumpsTo (o : Result) (s : State) (f : OpField) : Prop :=
  ∃ t, o = .next t ∧ t.pc.toNat = f.toNat / 2 ∧ t = { s with pc := t.pc }

/-- PC advances and nothing else differs. -/
def Sys2Proof.Claims.OnlyAdvances (o : Result) (s : State) : Prop := o = .next { s with pc := s.pc + 1 }

/-- The word index an instruction stores to, by the function its meaning applies to its operand field. -/
def Sys2Proof.Claims.storeTarget : Instr → Option WIdx
  | .store f => some (widx f)
  | .read f => some (widx f)
  | _ => none

/-- The instructions that write ACC: opcodes 1 and 5 to 10 (10_state.md R13). -/
def Sys2Proof.Claims.writesAcc (opc : OpCode) : Prop :=
  opc = 1 ∨ opc = 5 ∨ opc = 6 ∨ opc = 7 ∨ opc = 8 ∨ opc = 9 ∨ opc = 10

/-- The exact result of the four instructions whose result is checked (42_arithmetic.md R72, R73, R74, R77). -/
def Sys2Proof.Claims.exactResult (i : Instr) (s : State) : Option Int :=
  match i with
  | .addMem f => some (s.acc.toInt + (s.memRead (widx f)).toNat)
  | .addImm f => some (s.acc.toInt + f.toNat)
  | .subMem f => some (s.acc.toInt - (s.memRead (widx f)).toNat)
  | .subImm f => some (s.acc.toInt - f.toNat)
  | .mulMem f => some (s.acc.toInt * (s.memRead (widx f)).toNat)
  | .mulImm f => some (s.acc.toInt * f.toNat)
  | .neg => some (-s.acc.toInt)
  | _ => none

/-- The instruction the next run step runs, where PC is a word index. -/
def Sys2Proof.Claims.runs (s : State) (i : Instr) : Prop :=
  s.phase = .run ∧ s.pc.toNat < 2048 ∧ decode s.fetchWord = i

/-- The word with the bits its instruction ignores as a whole cleared: the field of END, NEG, NOP and HALT (R54). -/
def Sys2Proof.Claims.canonicalWord (w : Word) : Word :=
  if opcodeField w = 0 ∨ opcodeField w = 10 ∨ opcodeField w = 11 ∨ opcodeField w = 15 then w &&& 0xF000 else w

/-! ## Encoding (30_encoding.md) -/

/-- A few of the words of 95_test_vectors.md V6, against the opcode map of R53. -/
def Obligations.SampleWordsDecodeAsTheMapSays : Prop :=
  decode 0x0000 = .endOp ∧ decode 0x10C8 = .loadMem 0x0C8 ∧ decode 0x1805 = .loadImm 0x805 ∧
    decode 0x2800 = .store 0x800 ∧ decode 0x44D2 = .write 0x4D2 ∧ decode 0x67FF = .subMem 0x7FF ∧
    decode 0xA5A5 = .neg ∧ decode 0xD801 = .jneg 0x801 ∧ decode 0xFFFF = .halt

/-- Every well-formed instruction, with every operand its encoding admits, is read back from its word (R48, R53, R60). -/
def Obligations.DecodeReadsBackEveryEncodedInstruction : Prop :=
  ∀ i : Instr, i.wellFormed = true → decode (encode i) = i

/-- Every word decodes to a well-formed instruction whose encoding is the word, but for the field that END, NEG, NOP and HALT
ignore (R54, R55). -/
def Obligations.EncodeReadsBackEveryWord : Prop :=
  ∀ w : Word, (decode w).wellFormed = true ∧ encode (decode w) = Claims.canonicalWord w

/-- Every word fits the row of the instruction it decodes to, and no other row (R53, R55). -/
def Obligations.EveryWordFitsExactlyOneRow : Prop :=
  ∀ w : Word, w &&& (decode w).rowMask = (decode w).rowMatch ∧
    ∀ j : Instr, w &&& j.rowMask = j.rowMatch →
      j.rowMask = (decode w).rowMask ∧ j.rowMatch = (decode w).rowMatch

/-- The word index of a field is half of it, the flag bit included, so a field with bit 11 clear names an index below 1024
(20_memory.md R33, R34); an immediate is the whole field, 2048 to 4095 where bit 11 is set (30_encoding.md R52). -/
def Obligations.OperandFormsOfAField : Prop :=
  ∀ f : OpField, (widx f).toNat = f.toNat / 2 ∧ (target f).toNat = f.toNat / 2 ∧ (srcImm f).toNat = f.toNat ∧
    (f.getLsbD 11 = false → (widx f).toNat < 1024) ∧ (f.getLsbD 11 = true → 2048 ≤ (srcImm f).toNat ∧ (srcImm f).toNat ≤ 4095)

/-- The Word Decoder (41_io.md R63): most significant character first, a character that is not `1` counts as 0, the round
trip, and (the spec's decision D19) no word for a token of another length. -/
def Obligations.WordDecoderReadsTokensMsbFirst : Prop :=
  (∀ token : List Char, token.length = 16 → ∃ v, wordOfToken token = some v ∧
      ∀ i, i < 16 → v.getLsbD (15 - i) = decide (token[i]? = some '1')) ∧
    (∀ v : Word, wordOfToken (tokenOfWord v) = some v) ∧
    (∀ token : List Char, token.length ≠ 16 → wordOfToken token = none)

/-! ## Reset, loading, the step (10_state.md, 70_reset_and_hazards.md) -/

/-- Reset, applied in any state with any input sequence: the table of 10_state.md R28. The source gives PC and LDPTR alone; the
other zeros are the spec's decision D5, the two status registers its decision D6. -/
def Obligations.ResetGivesEveryPieceItsTableValue : Prop :=
  ∀ (s : State) (input : List Word),
    (s.hostReset input).pc = 0 ∧ (s.hostReset input).acc = 0 ∧ (s.hostReset input).ir = 0 ∧
    (s.hostReset input).opc = 0 ∧ (s.hostReset input).opd = 0 ∧ (∀ i : WIdx, (s.hostReset input).memRead i = 0) ∧
    (s.hostReset input).phase = .load ∧ (s.hostReset input).fcause = .none ∧ (s.hostReset input).ldptr = 0 ∧
    (s.hostReset input).input = input ∧ (s.hostReset input).output = []

/-- THE MODEL'S CHOICE (log entry 1): the constant `State.reset` is the reset with the empty input sequence, so its first step
ends loading and its second executes the END at index 0 (70_reset_and_hazards.md R103(f)). -/
def Obligations.ResetConstantHasEmptyInput : Prop :=
  State.reset.input = [] ∧ step State.reset = .next { State.reset with phase := .run } ∧
    step { State.reset with phase := .run } = .next { State.reset with phase := .run, pc := 1 }

/-- The loader step (70_reset_and_hazards.md R102). The rule's stop at a full memory rests on the spec's decision D11 (log entry 10). -/
def Obligations.LoaderStepStoresOneWordOrHandsOver : Prop :=
  ∀ s : State, s.phase = .load →
    (s.input = [] → step s = .next { s with phase := .run }) ∧
    (∀ w rest, s.input = w :: rest → s.ldptr.toNat = 2048 → Claims.FaultStops (step s) s .loadOverflow) ∧
    (∀ w rest, s.input = w :: rest → s.ldptr.toNat < 2048 → ∃ t, step s = .next t ∧
      t.phase = (if w = 0 then .run else .load) ∧ t.ldptr.toNat = s.ldptr.toNat + 1 ∧
      (∀ i : WIdx, t.memRead i = if i.toNat = s.ldptr.toNat then w else s.memRead i) ∧
      t = { s with phase := t.phase, ldptr := t.ldptr, mem := t.mem, input := rest }) ∧
    (∀ t, step s = .next t → s.pc = 0 → t.pc = 0)

/-- The run step (70_reset_and_hazards.md R104): where PC is past the memory it stops before the fetch; otherwise it latches IR,
OPC and OPD from the word at PC and runs exactly the instruction that word decodes to; and where that word's opcode is 15 the
unit halts. The range check is the spec's decision D7. -/
def Obligations.RunStepExecutesTheDecodedWord : Prop :=
  ∀ s : State, s.phase = .run →
    (2048 ≤ s.pc.toNat → Claims.FaultStops (step s) s .fetchRange) ∧
    (∀ (idx : WIdx) (w : Word) (i : Instr), s.pc.toNat = idx.toNat → s.memRead idx = w → decode w = i →
      i.wellFormed = true →
      step s = exec i { s with ir := w, opc := w.extractLsb' 12 4, opd := w.extractLsb' 0 12 }) ∧
    (∀ (idx : WIdx) (w : Word), s.pc.toNat = idx.toNat → s.memRead idx = w → w.extractLsb' 12 4 = 15 →
      step s = .next { s with ir := w, opc := 15, opd := w.extractLsb' 0 12, phase := .halted })

/-- In HALTED and FAULT no step is enabled (70_reset_and_hazards.md R106). That `step` answers a named `Fault` there is THE
MODEL'S CHOICE (log entry 3). -/
def Obligations.StoppedUnitTakesNoStep : Prop :=
  ∀ s : State, (s.phase = .halted → step s = .fault .noStepHalted) ∧
    (s.phase = .fault → step s = .fault (.noStepFault s.fcause))

/-- In LOAD and in RUN a step is always enabled, whatever the state: nothing is refused (70_reset_and_hazards.md R101, R114). -/
def Obligations.LoadAndRunAlwaysTakeAStep : Prop :=
  ∀ s : State, s.phase = .load ∨ s.phase = .run → ∃ t, step s = .next t

/-- Loading ends, within one step more than there are words of input (70_reset_and_hazards.md R114). -/
def Obligations.LoadingAlwaysEnds : Prop :=
  ∀ s : State, s.phase = .load →
    ∃ k, k ≤ s.input.length + 1 ∧ ∃ t, Host.Core.run core k s = .next t ∧ t.phase ≠ .load

/-- Word `k` of an input lands at index `k`, up to and including the first zero word, and the rest of the input is READ data
(70_reset_and_hazards.md R103). That ACC is 0 and every other word 0 rests on reset (10_state.md R28, the spec's decision D5). -/
def Obligations.LoaderPlacesTheImageFromIndexZero : Prop :=
  ∀ (image data : List Word), (∀ w ∈ image, w ≠ 0) → image.length < 2048 →
    ∃ t, Host.Core.run core (image.length + 1) (State.resetWith (image ++ 0 :: data)) = .next t ∧
      t.phase = .run ∧ t.pc = 0 ∧ t.acc = 0 ∧ t.ldptr.toNat = image.length + 1 ∧ t.input = data ∧ t.output = [] ∧
      ∀ i : WIdx, t.memRead i = (image[i.toNat]?).getD 0

/-! ## LOAD and STORE (40_load_store.md) -/

/-- LOAD, both forms (R61). The rule's immediate value rests on the spec's resolution C1 (its decision D3), its zero extension on D4
(log entries 9 and 10). -/
def Obligations.LoadResult : Prop :=
  (∀ w : Word, w &&& 0xF800 = 0x1000 → decode w = .loadMem (w.extractLsb' 0 12)) ∧
  (∀ w : Word, w &&& 0xF800 = 0x1800 → decode w = .loadImm (w.extractLsb' 0 12)) ∧
  ∀ (f : OpField) (s : State),
    (memFieldOk f = true → Claims.AccBecomes (exec (.loadMem f) s) s (s.memRead (widx f)).toNat) ∧
    (immFieldOk f = true → Claims.AccBecomes (exec (.loadImm f) s) s f.toNat)

/-- STORE (R62). -/
def Obligations.StoreResult : Prop :=
  (∀ w : Word, w &&& 0xF000 = 0x2000 → decode w = .store (w.extractLsb' 0 12)) ∧
  ∀ (f : OpField) (s : State), ∃ t, exec (.store f) s = .next t ∧
    ((t.memRead (widx f)).toNat : Int) = s.acc.toInt % 65536 ∧
    (∀ a : WIdx, a ≠ widx f → t.memRead a = s.memRead a) ∧ t = { s with mem := t.mem, pc := s.pc + 1 }

/-- STORE then LOAD of one field gives the accumulator back exactly where it fits in a word (R62, corner case (b)). -/
def Obligations.StoreThenLoadKeepsTheLowWord : Prop :=
  ∀ (f : OpField) (s : State), memFieldOk f = true → ∃ t u, exec (.store f) s = .next t ∧
    exec (.loadMem f) t = .next u ∧ u.acc.toInt = s.acc.toInt % 65536 ∧ (u.acc = s.acc ↔ 0 ≤ s.acc.toInt ∧ s.acc.toInt ≤ 65535)

/-! ## READ and WRITE (41_io.md) -/

/-- READ (R65). The fault stop with no word left is the spec's decision D10. -/
def Obligations.ReadResult : Prop :=
  (∀ w : Word, w &&& 0xF000 = 0x3000 → decode w = .read (w.extractLsb' 0 12)) ∧
  ∀ (f : OpField) (s : State),
    (s.input = [] → Claims.FaultStops (exec (.read f) s) s .inputExhausted) ∧
    (∀ w rest, s.input = w :: rest → ∃ t, exec (.read f) s = .next t ∧
      (t.memRead (widx f)).toNat = w.toNat % 4096 ∧ (∀ a : WIdx, a ≠ widx f → t.memRead a = s.memRead a) ∧
      t = { s with mem := t.mem, input := rest, pc := s.pc + 1 })

/-- WRITE (R66). -/
def Obligations.WriteResult : Prop :=
  (∀ w : Word, w &&& 0xF000 = 0x4000 → decode w = .write (w.extractLsb' 0 12)) ∧
  ∀ (f : OpField) (s : State),
    exec (.write f) s = .next { s with output := s.output ++ [s.memRead (widx f)], pc := s.pc + 1 }

/-! ## Arithmetic (42_arithmetic.md) -/

/-- ADD, both forms (R72). The rule's operand rests on the spec's decisions D3 and D4, its range and the stop outside it on D1 and D9
(log entries 9 and 10). -/
def Obligations.AddResult : Prop :=
  (∀ w : Word, w &&& 0xF800 = 0x5000 → decode w = .addMem (w.extractLsb' 0 12)) ∧
  (∀ w : Word, w &&& 0xF800 = 0x5800 → decode w = .addImm (w.extractLsb' 0 12)) ∧
  ∀ (f : OpField) (s : State),
    (memFieldOk f = true →
      Claims.Checked (exec (.addMem f) s) s (s.acc.toInt + (s.memRead (widx f)).toNat)) ∧
    (immFieldOk f = true → Claims.Checked (exec (.addImm f) s) s (s.acc.toInt + f.toNat))

/-- SUB, both forms (R73). The rule's operand rests on the spec's decisions D3 and D4, its range and the stop outside it on D1 and D9
(log entries 9 and 10). -/
def Obligations.SubResult : Prop :=
  (∀ w : Word, w &&& 0xF800 = 0x6000 → decode w = .subMem (w.extractLsb' 0 12)) ∧
  (∀ w : Word, w &&& 0xF800 = 0x6800 → decode w = .subImm (w.extractLsb' 0 12)) ∧
  ∀ (f : OpField) (s : State),
    (memFieldOk f = true →
      Claims.Checked (exec (.subMem f) s) s (s.acc.toInt - (s.memRead (widx f)).toNat)) ∧
    (immFieldOk f = true → Claims.Checked (exec (.subImm f) s) s (s.acc.toInt - f.toNat))

/-- MUL, both forms (R74). The rule's operand rests on the spec's decisions D3 and D4, its range and the stop outside it on D1 and D9
(log entries 9 and 10). -/
def Obligations.MulResult : Prop :=
  (∀ w : Word, w &&& 0xF800 = 0x7000 → decode w = .mulMem (w.extractLsb' 0 12)) ∧
  (∀ w : Word, w &&& 0xF800 = 0x7800 → decode w = .mulImm (w.extractLsb' 0 12)) ∧
  ∀ (f : OpField) (s : State),
    (memFieldOk f = true →
      Claims.Checked (exec (.mulMem f) s) s (s.acc.toInt * (s.memRead (widx f)).toNat)) ∧
    (immFieldOk f = true → Claims.Checked (exec (.mulImm f) s) s (s.acc.toInt * f.toNat))

/-- DIV, both forms (R75). The rule's operand rests on the spec's decisions D3 and D4, its rounding on D12, its stop on D8
(log entries 9 and 10). -/
def Obligations.DivResult : Prop :=
  (∀ w : Word, w &&& 0xF800 = 0x8000 → decode w = .divMem (w.extractLsb' 0 12)) ∧
  (∀ w : Word, w &&& 0xF800 = 0x8800 → decode w = .divImm (w.extractLsb' 0 12)) ∧
  ∀ (f : OpField) (s : State),
    (memFieldOk f = true → s.memRead (widx f) = 0 → Claims.FaultStops (exec (.divMem f) s) s .divZero) ∧
    (memFieldOk f = true → s.memRead (widx f) ≠ 0 → ∃ q r,
      Claims.TruncatedDivision s.acc.toInt (s.memRead (widx f)).toNat q r ∧
      Claims.AccBecomes (exec (.divMem f) s) s q) ∧
    (immFieldOk f = true → ∃ q r, Claims.TruncatedDivision s.acc.toInt f.toNat q r ∧
      Claims.AccBecomes (exec (.divImm f) s) s q)

/-- MOD, both forms (R76). The rule's operand rests on the spec's decisions D3 and D4, its rounding on D12, its stop on D8
(log entries 9 and 10). -/
def Obligations.ModResult : Prop :=
  (∀ w : Word, w &&& 0xF800 = 0x9000 → decode w = .modMem (w.extractLsb' 0 12)) ∧
  (∀ w : Word, w &&& 0xF800 = 0x9800 → decode w = .modImm (w.extractLsb' 0 12)) ∧
  ∀ (f : OpField) (s : State),
    (memFieldOk f = true → s.memRead (widx f) = 0 → Claims.FaultStops (exec (.modMem f) s) s .divZero) ∧
    (memFieldOk f = true → s.memRead (widx f) ≠ 0 → ∃ q r,
      Claims.TruncatedDivision s.acc.toInt (s.memRead (widx f)).toNat q r ∧
      Claims.AccBecomes (exec (.modMem f) s) s r) ∧
    (immFieldOk f = true → ∃ q r, Claims.TruncatedDivision s.acc.toInt f.toNat q r ∧
      Claims.AccBecomes (exec (.modImm f) s) s r)

/-- NEG (R77). The rule's range and the stop outside it rest on the spec's decisions D1 and D9 (log entry 10). -/
def Obligations.NegResult : Prop :=
  (∀ w : Word, w &&& 0xF000 = 0xA000 → decode w = .neg) ∧
  ∀ s : State,
    (s.acc.toInt ≠ -2147483648 → Claims.AccBecomes (exec .neg s) s (-s.acc.toInt)) ∧
    (s.acc.toInt = -2147483648 → Claims.FaultStops (exec .neg s) s .accOverflow)

/-- NEG twice is the identity of the accumulator except at the faulting value (R77, corner case (b)). -/
def Obligations.NegTwiceRestoresTheAccumulator : Prop :=
  ∀ s : State, s.acc.toInt ≠ -2147483648 →
    ∃ t u, exec .neg s = .next t ∧ exec .neg t = .next u ∧ u.acc = s.acc ∧ u = { s with pc := s.pc + 2 }

/-! ## Control transfer (43_control_transfer.md) -/

/-- JMP (R80). -/
def Obligations.JmpResult : Prop :=
  (∀ w : Word, w &&& 0xF000 = 0xC000 → decode w = .jmp (w.extractLsb' 0 12)) ∧
  ∀ (f : OpField) (s : State), Claims.JumpsTo (exec (.jmp f) s) s f

/-- JNEG (R81). -/
def Obligations.JnegResult : Prop :=
  (∀ w : Word, w &&& 0xF000 = 0xD000 → decode w = .jneg (w.extractLsb' 0 12)) ∧
  ∀ (f : OpField) (s : State),
    (s.acc.getLsbD 31 = true ↔ s.acc.toInt < 0) ∧
    (s.acc.toInt < 0 → Claims.JumpsTo (exec (.jneg f) s) s f) ∧
    (0 ≤ s.acc.toInt → Claims.OnlyAdvances (exec (.jneg f) s) s)

/-- JZERO (R82). -/
def Obligations.JzeroResult : Prop :=
  (∀ w : Word, w &&& 0xF000 = 0xE000 → decode w = .jzero (w.extractLsb' 0 12)) ∧
  ∀ (f : OpField) (s : State),
    (s.acc.toInt = 0 → Claims.JumpsTo (exec (.jzero f) s) s f) ∧
    (s.acc.toInt ≠ 0 → Claims.OnlyAdvances (exec (.jzero f) s) s)

/-! ## END, NOP, HALT (44_nop_end_halt.md) -/

/-- END and NOP only advance PC, whatever their field holds: the same effect, under words that differ, and the loader's sentinel
`0x0000` is an END while no NOP word is (R84). -/
def Obligations.EndAndNopOnlyAdvance : Prop :=
  (∀ w : Word, w &&& 0xF000 = 0x0000 → decode w = .endOp) ∧ (∀ w : Word, w &&& 0xF000 = 0xB000 → decode w = .nop) ∧
  decode 0x0000 = .endOp ∧ (∀ w : Word, w &&& 0xF000 = 0xB000 → w ≠ 0) ∧
  ∀ s : State, Claims.OnlyAdvances (exec .endOp s) s ∧ Claims.OnlyAdvances (exec .nop s) s

/-- HALT writes PHASE and nothing else, PC included (R85). -/
def Obligations.HaltResult : Prop :=
  (∀ w : Word, w &&& 0xF000 = 0xF000 → decode w = .halt) ∧
  ∀ s : State, exec .halt s = .next { s with phase := .halted }

/-- HALT is the only way into PHASE = HALTED, and what it leaves is what the host reads (R85, 10_state.md R29). -/
def Obligations.OnlyHaltEntersHalted : Prop :=
  ∀ s t : State, step s = .next t → t.phase = .halted →
    Claims.runs s .halt ∧ t = { s with ir := s.fetchWord, opc := 15, opd := s.fetchWord.extractLsb' 0 12, phase := .halted }

/-! ## What every instruction and every step leaves alone -/

/-- Every word of memory outside the one an instruction stores to reads as before; a form that stores nothing changes no
word (20_memory.md R43, R57 of 30_encoding.md). -/
def Obligations.ExecLeavesOtherMemoryWords : Prop :=
  ∀ (i : Instr) (s t : State), exec i s = .next t →
    ∀ a : WIdx, Claims.storeTarget i ≠ some a → t.memRead a = s.memRead a

/-- The registers an instruction does not write: IR, OPC, OPD and LDPTR for all, ACC but for opcodes 1 and 5 to 10, IN but for
READ, OUT but for WRITE, PHASE and FCAUSE but for a fault stop and HALT (30_encoding.md R57). -/
def Obligations.ExecLeavesOtherRegisters : Prop :=
  ∀ (i : Instr) (s t : State), exec i s = .next t →
    t.ir = s.ir ∧ t.opc = s.opc ∧ t.opd = s.opd ∧ t.ldptr = s.ldptr ∧
    (¬ Claims.writesAcc i.opcode → t.acc = s.acc) ∧ (i.opcode ≠ 3 → t.input = s.input) ∧
    (i.opcode ≠ 4 → t.output = s.output) ∧
    (t.fcause = s.fcause ∨ t.phase = .fault) ∧ (i.opcode ≠ 15 → t.phase = s.phase ∨ t.phase = .fault)

/-- ACC is written by opcodes 1 and 5 to 10 and by nothing else (10_state.md R13). -/
def Obligations.OnlyAccumulatorOpcodesChangeAcc : Prop :=
  ∀ s t : State, step s = .next t → t.acc ≠ s.acc → s.phase = .run ∧ t.phase = .run ∧ Claims.writesAcc t.opc

/-- IN only shrinks, from the front, by a loader step or a READ; OUT only grows, at the end, by the word a WRITE names
(10_state.md R25, R26). -/
def Obligations.InputShrinksAndOutputGrows : Prop :=
  ∀ s t : State, step s = .next t →
    (t.input = s.input ∨ ∃ w, s.input = w :: t.input ∧ (s.phase = .load ∨ s.phase = .run ∧ t.opc = 3)) ∧
    (t.output = s.output ∨ s.phase = .run ∧ t.opc = 4 ∧ t.output = s.output ++ [s.memRead (widx t.opd)])

/-- How each instruction leaves PC (10_state.md R15). That a PC of at most 2048 stays so is the spec's own derivation there; the
12 bits and the stop at 2048 are its decisions D2 and D7. -/
def Obligations.PcUpdateOfEveryInstruction : Prop :=
  ∀ s t : State, s.phase = .run → step s = .next t →
    (2048 ≤ s.pc.toNat → Claims.FaultStops (step s) s .fetchRange) ∧
    (t.phase ≠ .run → t.pc = s.pc) ∧
    (t.opc = 15 → t.pc = s.pc) ∧
    (t.phase = .run → t.opc.toNat ≤ 11 → t.pc.toNat = s.pc.toNat + 1) ∧
    (t.phase = .run → t.opc = 12 → t.pc.toNat = t.opd.toNat / 2) ∧
    (t.phase = .run → t.opc = 13 → t.pc.toNat = if s.acc.toInt < 0 then t.opd.toNat / 2 else s.pc.toNat + 1) ∧
    (t.phase = .run → t.opc = 14 → t.pc.toNat = if s.acc.toInt = 0 then t.opd.toNat / 2 else s.pc.toNat + 1) ∧
    (s.pc.toNat ≤ 2048 → t.pc.toNat ≤ 2048)

/-- PHASE: its codes and its legal transitions (10_state.md R21; the register is the spec's decision D6). -/
def Obligations.PhaseMovesOnlyAsDrawn : Prop :=
  Phase.code .load = 0 ∧ Phase.code .run = 1 ∧ Phase.code .halted = 2 ∧ Phase.code .fault = 3 ∧
  ∀ s t : State, step s = .next t →
    (s.phase = .load ∧ (t.phase = .load ∨ t.phase = .run ∨ t.phase = .fault)) ∨
    (s.phase = .run ∧ (t.phase = .run ∨ t.phase = .halted ∨ t.phase = .fault))

/-- Fault-stop entry (60_exceptions.md R88): it writes FCAUSE and PHASE; everything else is as the step began, but for the
latching of an execute-stage fault; and no step follows. The mechanism is the spec's decision D6, what IR, OPC and OPD hold its
decision D18. -/
def Obligations.FaultStopEntryIsPrecise : Prop :=
  ∀ s t : State, step s = .next t → t.phase = .fault →
    t.fcause ≠ .none ∧
    t = { s with ir := t.ir, opc := t.opc, opd := t.opd, fcause := t.fcause, phase := .fault } ∧
    (t.fcause = .fetchRange ∨ t.fcause = .loadOverflow → t.ir = s.ir ∧ t.opc = s.opc ∧ t.opd = s.opd) ∧
    (t.fcause ≠ .fetchRange → t.fcause ≠ .loadOverflow →
      t.ir = s.fetchWord ∧ t.opc = s.fetchWord.extractLsb' 12 4 ∧ t.opd = s.fetchWord.extractLsb' 0 12) ∧
    (∀ u, step t ≠ .next u)

/-- The fault causes: their codes, and exactly when each is raised, in every state whose LDPTR is in its range
(60_exceptions.md R87, the spec's decisions D6 to D11; the range is `State.Inv.ldptrRange`, kept by `StepKeepsTheInvariant`). -/
def Obligations.FaultCausesAndTheirConditions : Prop :=
  FCause.code .none = 0 ∧ FCause.code .fetchRange = 1 ∧ FCause.code .divZero = 2 ∧ FCause.code .accOverflow = 3 ∧
  FCause.code .inputExhausted = 4 ∧ FCause.code .loadOverflow = 5 ∧
  ∀ s t : State, s.ldptr.toNat ≤ 2048 → step s = .next t →
    (t.phase = .fault ∧ t.fcause = .fetchRange ↔ s.phase = .run ∧ 2048 ≤ s.pc.toNat) ∧
    (t.phase = .fault ∧ t.fcause = .divZero ↔
      ∃ f, (Claims.runs s (.divMem f) ∨ Claims.runs s (.modMem f)) ∧ s.memRead (widx f) = 0) ∧
    (t.phase = .fault ∧ t.fcause = .accOverflow ↔
      ∃ i r, Claims.runs s i ∧ Claims.exactResult i s = some r ∧ ¬ Claims.InRange r) ∧
    (t.phase = .fault ∧ t.fcause = .inputExhausted ↔ ∃ f, Claims.runs s (.read f) ∧ s.input = []) ∧
    (t.phase = .fault ∧ t.fcause = .loadOverflow ↔ s.phase = .load ∧ s.ldptr.toNat = 2048 ∧ s.input ≠ [])

/-- A program cannot observe OUT, LDPTR or FCAUSE: a run step does the same whatever they hold (10_state.md R30). -/
def Obligations.OutputLdptrAndCauseAreUnobservable : Prop :=
  ∀ (s t : State) (o : List Word) (l : PcWord) (c : FCause), s.phase = .run → step s = .next t →
    ∃ v, t.output = s.output ++ v ∧
      step { s with output := o, ldptr := l, fcause := c } =
        .next { t with output := o ++ v, ldptr := l, fcause := if t.phase = .fault then t.fcause else c }

/-- A word stored at the next index is the word the very next step fetches (70_reset_and_hazards.md R108; 20_memory.md R46 derives
it). -/
def Obligations.NextFetchSeesTheStore : Prop :=
  ∀ (s : State) (f : OpField), s.phase = .run → s.pc.toNat < 2047 → s.fetchWord = encode (.store f) →
    (widx f).toNat = s.pc.toNat + 1 →
    ∃ t, step s = .next t ∧ t.pc.toNat = s.pc.toNat + 1 ∧ t.fetchWord = trunc16 s.acc ∧
      step t = exec (decode (trunc16 s.acc)) { t with
        ir := trunc16 s.acc, opc := (trunc16 s.acc).extractLsb' 12 4, opd := (trunc16 s.acc).extractLsb' 0 12 }

/-- Bit 0 of a field that denotes a memory word or a jump target makes no difference, which 20_memory.md R36 derives. -/
def Obligations.OddFieldActsAsTheEvenOneBelow : Prop :=
  ∀ (f : OpField) (s : State),
    exec (.loadMem (f ||| 1)) s = exec (.loadMem f) s ∧ exec (.store (f ||| 1)) s = exec (.store f) s ∧
    exec (.read (f ||| 1)) s = exec (.read f) s ∧ exec (.write (f ||| 1)) s = exec (.write f) s ∧
    exec (.addMem (f ||| 1)) s = exec (.addMem f) s ∧ exec (.subMem (f ||| 1)) s = exec (.subMem f) s ∧
    exec (.mulMem (f ||| 1)) s = exec (.mulMem f) s ∧ exec (.divMem (f ||| 1)) s = exec (.divMem f) s ∧
    exec (.modMem (f ||| 1)) s = exec (.modMem f) s ∧ exec (.jmp (f ||| 1)) s = exec (.jmp f) s ∧
    exec (.jneg (f ||| 1)) s = exec (.jneg f) s ∧ exec (.jzero (f ||| 1)) s = exec (.jzero f) s

/-! ## Invariants -/

/-- Two memories in canonical form that read alike at every index are the same data: THE MODEL'S form (log entry 2) of "2048
words of 16 bits" (10_state.md R27). -/
def Obligations.CanonicalMemoriesAreEqualWhenTheyReadAlike : Prop :=
  ∀ m n : Memory, Memory.wf m → Memory.wf n → (∀ a, a < 2048 → Memory.read m a = Memory.read n a) → m = n

/-- Every step keeps the canonical form of the memory, THE MODEL'S form of it (log entry 2). -/
def Obligations.StepKeepsMemoryCanonical : Prop :=
  ∀ s t : State, Memory.wf s.mem → step s = .next t → Memory.wf t.mem

/-- OPC and OPD are always the two parts of IR, which 10_state.md R19 derives: at reset, and kept by every step. -/
def Obligations.OpcAndOpdAreThePartsOfIr : Prop :=
  (∀ (s : State) (input : List Word), (s.hostReset input).opc = (s.hostReset input).ir.extractLsb' 12 4 ∧
    (s.hostReset input).opd = (s.hostReset input).ir.extractLsb' 0 12) ∧
  ∀ s t : State, s.opc = s.ir.extractLsb' 12 4 ∧ s.opd = s.ir.extractLsb' 0 12 → step s = .next t →
    t.opc = t.ir.extractLsb' 12 4 ∧ t.opd = t.ir.extractLsb' 0 12

/-- The invariant holds after every reset. -/
def Obligations.InvariantHoldsAfterReset : Prop :=
  State.reset.Inv ∧ ∀ (s : State) (input : List Word), (s.hostReset input).Inv

/-- The invariant of the machine, `State.Inv`: the memory is canonical; OPC and OPD are the parts of IR; FCAUSE is 0 exactly
outside FAULT; PC and LDPTR are at most 2048; while loading, the registers are at reset and the words not yet loaded are
zero; in HALTED the unit stands at a HALT word; in FAULT the state shows the cause. Every step keeps it. -/
def Obligations.StepKeepsTheInvariant : Prop :=
  ∀ s t : State, s.Inv → step s = .next t → t.Inv

/-- What the host may read, and when (10_state.md R29; in FAULT and of the status it is the spec's decision D21): the interface of
R29 and, with it, every register and every memory word (00_scope.md R12(c)); that LDPTR is among them is THE MODEL'S reading (log
entry 13). -/
def Obligations.HostReadsStateOnlyAfterTheStop : Prop :=
  ∀ s : State, ((∃ o, s.observe = some o) ↔ s.runOver) ∧ ((∃ v, s.readFinal = some v) ↔ s.runOver) ∧
    (∀ o, s.observe = some o → o.acc = s.acc ∧ o.pc = s.pc ∧ o.ir = s.ir ∧ o.opc = s.opc ∧ o.opd = s.opd ∧
      ∀ i : WIdx, Memory.read o.words i.toNat = s.memRead i) ∧
    (∀ v, s.readFinal = some v → s.observe = some v.observation ∧ v.status = s.status ∧ v.ldptr = s.ldptr) ∧
    s.status.phase = s.phase.code ∧ s.status.fcause = s.fcause.code ∧ s.status.output = s.output
end

