-- ==== Sys2Proof/Laws/State.lean ====
section
/-! SUPPORT. One lemma per field per named update of the state, so that no later proof unfolds a record update. -/

namespace Sys2Proof.Machine

@[simp] theorem State.setAcc_acc (s : State) (v : Acc) : (s.setAcc v).acc = v := rfl
@[simp] theorem State.setAcc_pc (s : State) (v : Acc) : (s.setAcc v).pc = s.pc := rfl
@[simp] theorem State.setAcc_ir (s : State) (v : Acc) : (s.setAcc v).ir = s.ir := rfl
@[simp] theorem State.setAcc_opc (s : State) (v : Acc) : (s.setAcc v).opc = s.opc := rfl
@[simp] theorem State.setAcc_opd (s : State) (v : Acc) : (s.setAcc v).opd = s.opd := rfl
@[simp] theorem State.setAcc_phase (s : State) (v : Acc) : (s.setAcc v).phase = s.phase := rfl
@[simp] theorem State.setAcc_fcause (s : State) (v : Acc) : (s.setAcc v).fcause = s.fcause := rfl
@[simp] theorem State.setAcc_ldptr (s : State) (v : Acc) : (s.setAcc v).ldptr = s.ldptr := rfl
@[simp] theorem State.setAcc_mem (s : State) (v : Acc) : (s.setAcc v).mem = s.mem := rfl
@[simp] theorem State.setAcc_input (s : State) (v : Acc) : (s.setAcc v).input = s.input := rfl
@[simp] theorem State.setAcc_output (s : State) (v : Acc) : (s.setAcc v).output = s.output := rfl

@[simp] theorem State.setPc_acc (s : State) (v : PcWord) : (s.setPc v).acc = s.acc := rfl
@[simp] theorem State.setPc_pc (s : State) (v : PcWord) : (s.setPc v).pc = v := rfl
@[simp] theorem State.setPc_ir (s : State) (v : PcWord) : (s.setPc v).ir = s.ir := rfl
@[simp] theorem State.setPc_opc (s : State) (v : PcWord) : (s.setPc v).opc = s.opc := rfl
@[simp] theorem State.setPc_opd (s : State) (v : PcWord) : (s.setPc v).opd = s.opd := rfl
@[simp] theorem State.setPc_phase (s : State) (v : PcWord) : (s.setPc v).phase = s.phase := rfl
@[simp] theorem State.setPc_fcause (s : State) (v : PcWord) : (s.setPc v).fcause = s.fcause := rfl
@[simp] theorem State.setPc_ldptr (s : State) (v : PcWord) : (s.setPc v).ldptr = s.ldptr := rfl
@[simp] theorem State.setPc_mem (s : State) (v : PcWord) : (s.setPc v).mem = s.mem := rfl
@[simp] theorem State.setPc_input (s : State) (v : PcWord) : (s.setPc v).input = s.input := rfl
@[simp] theorem State.setPc_output (s : State) (v : PcWord) : (s.setPc v).output = s.output := rfl

@[simp] theorem State.advancePc_acc (s : State) : s.advancePc.acc = s.acc := rfl
@[simp] theorem State.advancePc_pc (s : State) : s.advancePc.pc = s.pc + 1 := rfl
@[simp] theorem State.advancePc_ir (s : State) : s.advancePc.ir = s.ir := rfl
@[simp] theorem State.advancePc_opc (s : State) : s.advancePc.opc = s.opc := rfl
@[simp] theorem State.advancePc_opd (s : State) : s.advancePc.opd = s.opd := rfl
@[simp] theorem State.advancePc_phase (s : State) : s.advancePc.phase = s.phase := rfl
@[simp] theorem State.advancePc_fcause (s : State) : s.advancePc.fcause = s.fcause := rfl
@[simp] theorem State.advancePc_ldptr (s : State) : s.advancePc.ldptr = s.ldptr := rfl
@[simp] theorem State.advancePc_mem (s : State) : s.advancePc.mem = s.mem := rfl
@[simp] theorem State.advancePc_input (s : State) : s.advancePc.input = s.input := rfl
@[simp] theorem State.advancePc_output (s : State) : s.advancePc.output = s.output := rfl

@[simp] theorem State.setPhase_acc (s : State) (p : Phase) : (s.setPhase p).acc = s.acc := rfl
@[simp] theorem State.setPhase_pc (s : State) (p : Phase) : (s.setPhase p).pc = s.pc := rfl
@[simp] theorem State.setPhase_ir (s : State) (p : Phase) : (s.setPhase p).ir = s.ir := rfl
@[simp] theorem State.setPhase_opc (s : State) (p : Phase) : (s.setPhase p).opc = s.opc := rfl
@[simp] theorem State.setPhase_opd (s : State) (p : Phase) : (s.setPhase p).opd = s.opd := rfl
@[simp] theorem State.setPhase_phase (s : State) (p : Phase) : (s.setPhase p).phase = p := rfl
@[simp] theorem State.setPhase_fcause (s : State) (p : Phase) : (s.setPhase p).fcause = s.fcause := rfl
@[simp] theorem State.setPhase_ldptr (s : State) (p : Phase) : (s.setPhase p).ldptr = s.ldptr := rfl
@[simp] theorem State.setPhase_mem (s : State) (p : Phase) : (s.setPhase p).mem = s.mem := rfl
@[simp] theorem State.setPhase_input (s : State) (p : Phase) : (s.setPhase p).input = s.input := rfl
@[simp] theorem State.setPhase_output (s : State) (p : Phase) : (s.setPhase p).output = s.output := rfl

@[simp] theorem State.setLdptr_acc (s : State) (v : PcWord) : (s.setLdptr v).acc = s.acc := rfl
@[simp] theorem State.setLdptr_pc (s : State) (v : PcWord) : (s.setLdptr v).pc = s.pc := rfl
@[simp] theorem State.setLdptr_ir (s : State) (v : PcWord) : (s.setLdptr v).ir = s.ir := rfl
@[simp] theorem State.setLdptr_opc (s : State) (v : PcWord) : (s.setLdptr v).opc = s.opc := rfl
@[simp] theorem State.setLdptr_opd (s : State) (v : PcWord) : (s.setLdptr v).opd = s.opd := rfl
@[simp] theorem State.setLdptr_phase (s : State) (v : PcWord) : (s.setLdptr v).phase = s.phase := rfl
@[simp] theorem State.setLdptr_fcause (s : State) (v : PcWord) : (s.setLdptr v).fcause = s.fcause := rfl
@[simp] theorem State.setLdptr_ldptr (s : State) (v : PcWord) : (s.setLdptr v).ldptr = v := rfl
@[simp] theorem State.setLdptr_mem (s : State) (v : PcWord) : (s.setLdptr v).mem = s.mem := rfl
@[simp] theorem State.setLdptr_input (s : State) (v : PcWord) : (s.setLdptr v).input = s.input := rfl
@[simp] theorem State.setLdptr_output (s : State) (v : PcWord) : (s.setLdptr v).output = s.output := rfl

@[simp] theorem State.setInput_acc (s : State) (rest : List Word) : (s.setInput rest).acc = s.acc := rfl
@[simp] theorem State.setInput_pc (s : State) (rest : List Word) : (s.setInput rest).pc = s.pc := rfl
@[simp] theorem State.setInput_ir (s : State) (rest : List Word) : (s.setInput rest).ir = s.ir := rfl
@[simp] theorem State.setInput_opc (s : State) (rest : List Word) : (s.setInput rest).opc = s.opc := rfl
@[simp] theorem State.setInput_opd (s : State) (rest : List Word) : (s.setInput rest).opd = s.opd := rfl
@[simp] theorem State.setInput_phase (s : State) (rest : List Word) : (s.setInput rest).phase = s.phase := rfl
@[simp] theorem State.setInput_fcause (s : State) (rest : List Word) : (s.setInput rest).fcause = s.fcause := rfl
@[simp] theorem State.setInput_ldptr (s : State) (rest : List Word) : (s.setInput rest).ldptr = s.ldptr := rfl
@[simp] theorem State.setInput_mem (s : State) (rest : List Word) : (s.setInput rest).mem = s.mem := rfl
@[simp] theorem State.setInput_input (s : State) (rest : List Word) : (s.setInput rest).input = rest := rfl
@[simp] theorem State.setInput_output (s : State) (rest : List Word) : (s.setInput rest).output = s.output := rfl

@[simp] theorem State.outPush_acc (s : State) (v : Word) : (s.outPush v).acc = s.acc := rfl
@[simp] theorem State.outPush_pc (s : State) (v : Word) : (s.outPush v).pc = s.pc := rfl
@[simp] theorem State.outPush_ir (s : State) (v : Word) : (s.outPush v).ir = s.ir := rfl
@[simp] theorem State.outPush_opc (s : State) (v : Word) : (s.outPush v).opc = s.opc := rfl
@[simp] theorem State.outPush_opd (s : State) (v : Word) : (s.outPush v).opd = s.opd := rfl
@[simp] theorem State.outPush_phase (s : State) (v : Word) : (s.outPush v).phase = s.phase := rfl
@[simp] theorem State.outPush_fcause (s : State) (v : Word) : (s.outPush v).fcause = s.fcause := rfl
@[simp] theorem State.outPush_ldptr (s : State) (v : Word) : (s.outPush v).ldptr = s.ldptr := rfl
@[simp] theorem State.outPush_mem (s : State) (v : Word) : (s.outPush v).mem = s.mem := rfl
@[simp] theorem State.outPush_input (s : State) (v : Word) : (s.outPush v).input = s.input := rfl
@[simp] theorem State.outPush_output (s : State) (v : Word) : (s.outPush v).output = s.output ++ [v] := rfl

@[simp] theorem State.memWrite_acc (s : State) (i : WIdx) (v : Word) : (s.memWrite i v).acc = s.acc := rfl
@[simp] theorem State.memWrite_pc (s : State) (i : WIdx) (v : Word) : (s.memWrite i v).pc = s.pc := rfl
@[simp] theorem State.memWrite_ir (s : State) (i : WIdx) (v : Word) : (s.memWrite i v).ir = s.ir := rfl
@[simp] theorem State.memWrite_opc (s : State) (i : WIdx) (v : Word) : (s.memWrite i v).opc = s.opc := rfl
@[simp] theorem State.memWrite_opd (s : State) (i : WIdx) (v : Word) : (s.memWrite i v).opd = s.opd := rfl
@[simp] theorem State.memWrite_phase (s : State) (i : WIdx) (v : Word) : (s.memWrite i v).phase = s.phase := rfl
@[simp] theorem State.memWrite_fcause (s : State) (i : WIdx) (v : Word) : (s.memWrite i v).fcause = s.fcause := rfl
@[simp] theorem State.memWrite_ldptr (s : State) (i : WIdx) (v : Word) : (s.memWrite i v).ldptr = s.ldptr := rfl
@[simp] theorem State.memWrite_mem (s : State) (i : WIdx) (v : Word) : (s.memWrite i v).mem = Memory.write s.mem i.toNat v := rfl
@[simp] theorem State.memWrite_input (s : State) (i : WIdx) (v : Word) : (s.memWrite i v).input = s.input := rfl
@[simp] theorem State.memWrite_output (s : State) (i : WIdx) (v : Word) : (s.memWrite i v).output = s.output := rfl

@[simp] theorem State.raiseFault_acc (s : State) (c : FCause) : (s.raiseFault c).acc = s.acc := rfl
@[simp] theorem State.raiseFault_pc (s : State) (c : FCause) : (s.raiseFault c).pc = s.pc := rfl
@[simp] theorem State.raiseFault_ir (s : State) (c : FCause) : (s.raiseFault c).ir = s.ir := rfl
@[simp] theorem State.raiseFault_opc (s : State) (c : FCause) : (s.raiseFault c).opc = s.opc := rfl
@[simp] theorem State.raiseFault_opd (s : State) (c : FCause) : (s.raiseFault c).opd = s.opd := rfl
@[simp] theorem State.raiseFault_phase (s : State) (c : FCause) : (s.raiseFault c).phase = .fault := rfl
@[simp] theorem State.raiseFault_fcause (s : State) (c : FCause) : (s.raiseFault c).fcause = c := rfl
@[simp] theorem State.raiseFault_ldptr (s : State) (c : FCause) : (s.raiseFault c).ldptr = s.ldptr := rfl
@[simp] theorem State.raiseFault_mem (s : State) (c : FCause) : (s.raiseFault c).mem = s.mem := rfl
@[simp] theorem State.raiseFault_input (s : State) (c : FCause) : (s.raiseFault c).input = s.input := rfl
@[simp] theorem State.raiseFault_output (s : State) (c : FCause) : (s.raiseFault c).output = s.output := rfl

@[simp] theorem State.latch_acc (s : State) (w : Word) : (s.latch w).acc = s.acc := rfl
@[simp] theorem State.latch_pc (s : State) (w : Word) : (s.latch w).pc = s.pc := rfl
@[simp] theorem State.latch_ir (s : State) (w : Word) : (s.latch w).ir = w := rfl
@[simp] theorem State.latch_opc (s : State) (w : Word) : (s.latch w).opc = opcodeField w := rfl
@[simp] theorem State.latch_opd (s : State) (w : Word) : (s.latch w).opd = operandField w := rfl
@[simp] theorem State.latch_phase (s : State) (w : Word) : (s.latch w).phase = s.phase := rfl
@[simp] theorem State.latch_fcause (s : State) (w : Word) : (s.latch w).fcause = s.fcause := rfl
@[simp] theorem State.latch_ldptr (s : State) (w : Word) : (s.latch w).ldptr = s.ldptr := rfl
@[simp] theorem State.latch_mem (s : State) (w : Word) : (s.latch w).mem = s.mem := rfl
@[simp] theorem State.latch_input (s : State) (w : Word) : (s.latch w).input = s.input := rfl
@[simp] theorem State.latch_output (s : State) (w : Word) : (s.latch w).output = s.output := rfl

end Sys2Proof.Machine
end

