-- ==== Sys2Proof/Laws/Memory.lean ====
section
/-! SUPPORT. The laws of memory: a read after a write, and the canonical form (log entry 2). Both hold of every list, canonical
or not, but for `Memory.wf_write`, which keeps the form where it holds. -/

namespace Sys2Proof.Machine

@[simp] theorem Memory.read_nil (a : Nat) : Memory.read [] a = 0 := rfl

theorem Memory.read_cons (c : Nat × Word) (m : Memory) (a : Nat) :
    Memory.read (c :: m) a = if c.1 = a then c.2 else Memory.read m a := rfl

theorem Memory.read_erase_self (m : Memory) (a : Nat) : Memory.read (Memory.erase m a) a = 0 := by
  induction m with
  | nil => rfl
  | cons c m ih =>
    unfold Memory.erase at ih ⊢
    by_cases h : c.1 = a
    · simpa [List.filter_cons, h] using ih
    · simpa [List.filter_cons, h, Memory.read_cons] using ih

theorem Memory.read_erase_of_ne (m : Memory) {a b : Nat} (h : b ≠ a) :
    Memory.read (Memory.erase m a) b = Memory.read m b := by
  induction m with
  | nil => rfl
  | cons c m ih =>
    unfold Memory.erase at ih ⊢
    by_cases hc : c.1 = a
    · have hb : c.1 ≠ b := fun e => h (e.symm.trans hc)
      simpa [List.filter_cons, hc, Memory.read_cons, hb, h.symm] using ih
    · simp [hc, Memory.read_cons, ih]

theorem Memory.read_insert_of_ne (m : Memory) {a b : Nat} (v : Word) (h : b ≠ a) :
    Memory.read (Memory.insert m a v) b = Memory.read m b := by
  induction m with
  | nil => simp [Memory.insert, Memory.read_cons, h.symm]
  | cons c m ih =>
    unfold Memory.insert
    split
    · simp [Memory.read_cons, h.symm]
    · simp [Memory.read_cons, ih]

theorem Memory.read_insert_self (m : Memory) (a : Nat) (v : Word) (h : ∀ c ∈ m, c.1 ≠ a) :
    Memory.read (Memory.insert m a v) a = v := by
  induction m with
  | nil => simp [Memory.insert, Memory.read_cons]
  | cons c m ih =>
    unfold Memory.insert
    split
    · simp [Memory.read_cons]
    · simp [Memory.read_cons, h c (by simp), ih fun d hd => h d (by simp [hd])]

theorem Memory.mem_erase_ne {m : Memory} {a : Nat} {c : Nat × Word} (h : c ∈ Memory.erase m a) : c ∈ m ∧ c.1 ≠ a := by
  simpa [Memory.erase] using h

/-- A read after a write to the same index gives the word written. -/
theorem Memory.read_write_self (m : Memory) (a : Nat) (v : Word) : Memory.read (Memory.write m a v) a = v := by
  unfold Memory.write
  split
  · next h => rw [Memory.read_erase_self, h]; rfl
  · exact Memory.read_insert_self _ _ _ fun c hc => (Memory.mem_erase_ne hc).2

/-- A write leaves every other index alone. -/
theorem Memory.read_write_of_ne (m : Memory) {a b : Nat} (v : Word) (h : b ≠ a) :
    Memory.read (Memory.write m a v) b = Memory.read m b := by
  unfold Memory.write
  split
  · exact Memory.read_erase_of_ne m h
  · rw [Memory.read_insert_of_ne _ _ h, Memory.read_erase_of_ne m h]

theorem Memory.wf_nil : Memory.wf [] := by decide

theorem Memory.wf_erase {m : Memory} (a : Nat) (h : Memory.wf m) : Memory.wf (Memory.erase m a) :=
  ⟨h.1.filter _, fun c hc => h.2 c (Memory.mem_erase_ne hc).1⟩

theorem Memory.mem_insert {m : Memory} {a : Nat} {v : Word} {c : Nat × Word} (h : c ∈ Memory.insert m a v) :
    c = (a, v) ∨ c ∈ m := by
  induction m with
  | nil => exact .inl (by simpa [Memory.insert] using h)
  | cons d m ih =>
    unfold Memory.insert at h
    split at h
    · simpa using h
    · rcases List.mem_cons.1 h with rfl | h
      · exact .inr (by simp)
      · exact (ih h).imp_right fun e => by simp [e]

theorem Memory.wf_insert {m : Memory} {a : Nat} {v : Word} (h : Memory.wf m) (hm : ∀ c ∈ m, c.1 ≠ a)
    (ha : a < Config.memWords) (hv : v ≠ Memory.unlisted) : Memory.wf (Memory.insert m a v) := by
  refine ⟨?_, fun c hc => ?_⟩
  · induction m with
    | nil => simp [Memory.insert]
    | cons c m ih =>
      have hp := List.pairwise_cons.1 h.1
      have hwf : Memory.wf m := ⟨hp.2, fun d hd => h.2 d (by simp [hd])⟩
      unfold Memory.insert
      split
      · next hlt =>
        refine List.pairwise_cons.2 ⟨fun d hd => ?_, h.1⟩
        rcases List.mem_cons.1 hd with rfl | hd
        · exact hlt
        · exact hlt.trans (hp.1 d hd)
      · next hlt =>
        have hca : c.1 < a := lt_of_le_of_ne (not_lt.1 hlt) (hm c (by simp))
        refine List.pairwise_cons.2 ⟨fun d hd => ?_, ih hwf fun d hd => hm d (by simp [hd])⟩
        rcases Memory.mem_insert hd with rfl | hd
        · exact hca
        · exact hp.1 d hd
  · rcases Memory.mem_insert hc with rfl | hc
    · exact ⟨ha, hv⟩
    · exact h.2 c hc

/-- Every write inside the memory keeps the canonical form. -/
theorem Memory.wf_write {m : Memory} {a : Nat} (v : Word) (h : Memory.wf m) (ha : a < Config.memWords) :
    Memory.wf (Memory.write m a v) := by
  unfold Memory.write
  split
  · exact Memory.wf_erase a h
  · next hv => exact Memory.wf_insert (Memory.wf_erase a h) (fun c hc => (Memory.mem_erase_ne hc).2) ha hv

/-- `MemWrite` keeps the canonical form: its index is always inside the memory (20_memory.md R40). -/
theorem State.wf_memWrite {s : State} (i : WIdx) (v : Word) (h : Memory.wf s.mem) : Memory.wf (s.memWrite i v).mem :=
  Memory.wf_write v h i.isLt

@[simp] theorem State.memRead_memWrite_self (s : State) (i : WIdx) (v : Word) : (s.memWrite i v).memRead i = v :=
  Memory.read_write_self _ _ _

theorem State.memRead_memWrite_of_ne (s : State) {i j : WIdx} (v : Word) (h : j ≠ i) :
    (s.memWrite i v).memRead j = s.memRead j :=
  Memory.read_write_of_ne _ _ fun e => h (BitVec.eq_of_toNat_eq e)

theorem State.memRead_congr {s t : State} (h : t.mem = s.mem) (i : WIdx) : t.memRead i = s.memRead i := by
  unfold State.memRead; rw [h]

/-! No other update touches the memory. -/

@[simp] theorem State.memRead_setAcc (s : State) (v : Acc) (i : WIdx) : (s.setAcc v).memRead i = s.memRead i := rfl
@[simp] theorem State.memRead_setPc (s : State) (v : PcWord) (i : WIdx) : (s.setPc v).memRead i = s.memRead i := rfl
@[simp] theorem State.memRead_advancePc (s : State) (i : WIdx) : s.advancePc.memRead i = s.memRead i := rfl
@[simp] theorem State.memRead_setPhase (s : State) (p : Phase) (i : WIdx) : (s.setPhase p).memRead i = s.memRead i := rfl
@[simp] theorem State.memRead_setLdptr (s : State) (v : PcWord) (i : WIdx) : (s.setLdptr v).memRead i = s.memRead i := rfl
@[simp] theorem State.memRead_setInput (s : State) (rest : List Word) (i : WIdx) : (s.setInput rest).memRead i = s.memRead i := rfl
@[simp] theorem State.memRead_outPush (s : State) (v : Word) (i : WIdx) : (s.outPush v).memRead i = s.memRead i := rfl
@[simp] theorem State.memRead_raiseFault (s : State) (c : FCause) (i : WIdx) : (s.raiseFault c).memRead i = s.memRead i := rfl
@[simp] theorem State.memRead_latch (s : State) (w : Word) (i : WIdx) : (s.latch w).memRead i = s.memRead i := rfl

theorem State.reset_mem_wf : Memory.wf State.reset.mem := Memory.wf_nil

end Sys2Proof.Machine
end

