-- ==== Sys2Proof/Laws/Ops.lean ====
section
/-! SUPPORT. For each shared operation, once, everything it can answer: an inversion lemma to cite instead of unfolding it. -/

namespace Sys2Proof.Machine

theorem State.inPop?_eq_none {s : State} : s.inPop? = none ↔ s.input = [] := by
  unfold State.inPop?; split <;> simp [*]

theorem State.inPop?_eq_some {s s' : State} {w : Word} :
    s.inPop? = some (w, s') ↔ ∃ rest, s.input = w :: rest ∧ s' = s.setInput rest := by
  unfold State.inPop?
  split
  · next h => simp [h]
  · next h => rw [h]; constructor
              · intro e; simp at e; exact ⟨_, by simp [e.1], e.2.symm⟩
              · rintro ⟨r, e, rfl⟩; simp at e; simp [e.1, e.2]

theorem s32_iff {r : Int} : s32 r = true ↔ -2147483648 ≤ r ∧ r ≤ 2147483647 := by simp [s32]

/-- An integer in the accumulator's range is the value of its own 32-bit form. -/
theorem toInt_ofInt_of_s32 {r : Int} (h : s32 r = true) : (BitVec.ofInt 32 r).toInt = r := by
  rw [s32_iff] at h
  rw [BitVec.toInt_ofInt]
  exact Int.bmod_eq_of_le (by omega) (by omega)

theorem loadAcc_next {src : Word} {s t : State} (h : loadAcc src s = .next t) : t = (s.setAcc (zext32 src)).advancePc := by
  simpa [loadAcc] using h.symm

theorem finishChecked_cases {r : Int} {s t : State} (h : finishChecked r s = .next t) :
    (s32 r = true ∧ t = (s.setAcc (BitVec.ofInt 32 r)).advancePc) ∨
      (s32 r = false ∧ t = s.raiseFault .accOverflow) := by
  unfold finishChecked at h
  split at h
  · next hr => exact .inl ⟨hr, by simpa using h.symm⟩
  · next hr => exact .inr ⟨by simpa using hr, by simpa using h.symm⟩

theorem finishDivision_cases {src : Word} {r : Int} {s t : State} (h : finishDivision src r s = .next t) :
    (src = 0 ∧ t = s.raiseFault .divZero) ∨ (src ≠ 0 ∧ t = (s.setAcc (BitVec.ofInt 32 r)).advancePc) := by
  unfold finishDivision at h
  split at h
  · next hs => exact .inl ⟨hs, by simpa using h.symm⟩
  · next hs => exact .inr ⟨hs, by simpa using h.symm⟩

theorem jumpIf_cases {c : Bool} {f : OpField} {s t : State} (h : jumpIf c f s = .next t) :
    (c = true ∧ t = s.setPc (target f)) ∨ (c = false ∧ t = s.advancePc) := by
  unfold jumpIf at h
  split at h
  · next hc => exact .inl ⟨hc, by simpa using h.symm⟩
  · next hc => exact .inr ⟨by simpa using hc, by simpa using h.symm⟩

theorem execRead_cases {f : OpField} {s t : State} (h : execRead f s = .next t) :
    (s.input = [] ∧ t = s.raiseFault .inputExhausted) ∨
      ∃ w rest, s.input = w :: rest ∧
        t = ((s.setInput rest).memWrite (widx f) (w &&& Config.readMask)).advancePc := by
  unfold execRead at h
  split at h
  · next hp => exact .inl ⟨State.inPop?_eq_none.1 hp, by simpa using h.symm⟩
  · next hp =>
    obtain ⟨rest, hi, rfl⟩ := State.inPop?_eq_some.1 hp
    exact .inr ⟨_, rest, hi, by simpa using h.symm⟩

/-- All a loader step can do (70_reset_and_hazards.md R102). -/
theorem loaderStep_cases {s t : State} (h : loaderStep s = .next t) :
    (s.input = [] ∧ t = s.setPhase .run) ∨
      (s.input ≠ [] ∧ Config.memWords ≤ s.ldptr.toNat ∧ t = s.raiseFault .loadOverflow) ∨
      ∃ w rest, s.input = w :: rest ∧ s.ldptr.toNat < Config.memWords ∧
        ((w = 0 ∧ t = (((s.setInput rest).memWrite s.ldIndex w).setLdptr (s.ldptr + 1)).setPhase .run) ∨
          (w ≠ 0 ∧ t = ((s.setInput rest).memWrite s.ldIndex w).setLdptr (s.ldptr + 1))) := by
  unfold loaderStep at h
  split at h
  · next hp => exact .inl ⟨State.inPop?_eq_none.1 hp, by simpa using h.symm⟩
  · next hp =>
    obtain ⟨rest, hi, rfl⟩ := State.inPop?_eq_some.1 hp
    split at h
    · next hl => exact .inr (.inl ⟨by simp [hi], hl, by simpa using h.symm⟩)
    · next hl =>
      refine .inr (.inr ⟨_, rest, hi, not_le.1 hl, ?_⟩)
      dsimp only at h
      split at h
      · next hw => exact .inl ⟨hw, by simpa using h.symm⟩
      · next hw => exact .inr ⟨hw, by simpa using h.symm⟩

/-- All a run step can do: it stops at the range check, or it executes what it fetched (R104). -/
theorem runStep_cases {s t : State} (h : runStep s = .next t) :
    (Config.memWords ≤ s.pc.toNat ∧ t = s.raiseFault .fetchRange) ∨
      (s.pc.toNat < Config.memWords ∧ exec (decode s.fetchWord) (s.latch s.fetchWord) = .next t) := by
  unfold runStep at h
  split at h
  · next hp => exact .inr ⟨by simpa [State.pcInRange] using hp, h⟩
  · next hp => exact .inl ⟨by simpa [State.pcInRange] using hp, by simpa using h.symm⟩

/-- A step that answers a next state is a loader step or a run step (R101). -/
theorem step_cases {s t : State} (h : step s = .next t) :
    (s.phase = .load ∧ loaderStep s = .next t) ∨ (s.phase = .run ∧ runStep s = .next t) := by
  unfold step at h
  split at h
  · next hp => exact .inl ⟨hp, h⟩
  · next hp => exact .inr ⟨hp, h⟩
  · simp at h
  · simp at h

theorem State.placeNext_phase (s : State) (w : Word) : (s.placeNext w).phase = .run := rfl

theorem State.placeNext_pc (s : State) (w : Word) :
    (s.placeNext w).pc = if s.pcInRange then s.pc else Config.resetPc := by
  unfold State.placeNext
  split <;> rfl

theorem State.placeNext_pcInRange (s : State) (w : Word) : (s.placeNext w).pcInRange = true := by
  have hp := State.placeNext_pc s w
  by_cases h : s.pcInRange = true
  · rw [if_pos h] at hp
    unfold State.pcInRange at h ⊢
    rw [hp]; exact h
  · rw [if_neg h] at hp
    unfold State.pcInRange
    rw [hp]; decide

/-- What `withFetchWord` places is what the next fetch reads. -/
theorem State.placeNext_fetchWord (s : State) (w : Word) : (s.placeNext w).fetchWord = w :=
  State.memRead_memWrite_self _ _ _

/-- The very next step after `placeNext` runs the instruction placed. -/
theorem step_placeNext (s : State) (w : Word) :
    step (s.placeNext w) = exec (decode w) ((s.placeNext w).latch w) := by
  have h : step (s.placeNext w) = runStep (s.placeNext w) := rfl
  rw [h, runStep, if_pos (State.placeNext_pcInRange s w), State.placeNext_fetchWord]

end Sys2Proof.Machine
end

