-- ==== Sys2Proof/Laws/PerInstr.lean ====
section
/-! SUPPORT. A family of lemmas, one per constructor of `Instr`: the word of a well-formed instruction fits its row of the
opcode map (30_encoding.md R53). -/

namespace Sys2Proof.Laws

theorem testBit_field (f : OpField) {k : Nat} (h : 12 ≤ k) : f.toNat.testBit k = false :=
  Nat.testBit_lt_two_pow (lt_of_lt_of_le f.isLt (Nat.pow_le_pow_right (by decide) h))

theorem wordOf_and_opcode (opc : OpCode) (f : OpField) : wordOf opc f &&& 0xF000 = wordOf opc 0 := by
  unfold wordOf
  ext i hi
  interval_cases i <;> simp [BitVec.getLsbD, testBit_field]

theorem wordOf_and_mode (opc : OpCode) (f : OpField) :
    wordOf opc f &&& 0xF800 = wordOf opc (if f.getLsbD 11 then 0x800 else 0) := by
  unfold wordOf
  ext i hi
  cases h : f.getLsbD 11 <;> interval_cases i <;> simp_all [BitVec.getLsbD, testBit_field]

theorem wordOf_memField {opc : OpCode} {f : OpField} (h : memFieldOk f = true) :
    wordOf opc f &&& 0xF800 = wordOf opc 0 := by
  have hf : f.getLsbD 11 = false := by simpa [memFieldOk] using h
  rw [wordOf_and_mode, hf]
  simp

theorem wordOf_immField {opc : OpCode} {f : OpField} (h : immFieldOk f = true) :
    wordOf opc f &&& 0xF800 = wordOf opc 0x800 := by
  have hf : f.getLsbD 11 = true := h
  rw [wordOf_and_mode, hf]
  simp

/-- The word of a well-formed instruction fits its row. -/
def EncodeFitsRow.Statement (i : Instr) : Prop := i.wellFormed = true → encode i &&& i.rowMask = i.rowMatch

theorem EncodeFitsRow.endOp : EncodeFitsRow.Statement .endOp := fun _ => rfl

theorem EncodeFitsRow.loadMem (f : OpField) : EncodeFitsRow.Statement (.loadMem f) :=
  fun h => (wordOf_memField h).trans (show wordOf 1 0 = 0x1000 by decide)

theorem EncodeFitsRow.loadImm (f : OpField) : EncodeFitsRow.Statement (.loadImm f) :=
  fun h => (wordOf_immField h).trans (show wordOf 1 0x800 = 0x1800 by decide)

theorem EncodeFitsRow.store (f : OpField) : EncodeFitsRow.Statement (.store f) :=
  fun _ => (wordOf_and_opcode _ f).trans (show wordOf 2 0 = 0x2000 by decide)

theorem EncodeFitsRow.read (f : OpField) : EncodeFitsRow.Statement (.read f) :=
  fun _ => (wordOf_and_opcode _ f).trans (show wordOf 3 0 = 0x3000 by decide)

theorem EncodeFitsRow.write (f : OpField) : EncodeFitsRow.Statement (.write f) :=
  fun _ => (wordOf_and_opcode _ f).trans (show wordOf 4 0 = 0x4000 by decide)

theorem EncodeFitsRow.addMem (f : OpField) : EncodeFitsRow.Statement (.addMem f) :=
  fun h => (wordOf_memField h).trans (show wordOf 5 0 = 0x5000 by decide)

theorem EncodeFitsRow.addImm (f : OpField) : EncodeFitsRow.Statement (.addImm f) :=
  fun h => (wordOf_immField h).trans (show wordOf 5 0x800 = 0x5800 by decide)

theorem EncodeFitsRow.subMem (f : OpField) : EncodeFitsRow.Statement (.subMem f) :=
  fun h => (wordOf_memField h).trans (show wordOf 6 0 = 0x6000 by decide)

theorem EncodeFitsRow.subImm (f : OpField) : EncodeFitsRow.Statement (.subImm f) :=
  fun h => (wordOf_immField h).trans (show wordOf 6 0x800 = 0x6800 by decide)

theorem EncodeFitsRow.mulMem (f : OpField) : EncodeFitsRow.Statement (.mulMem f) :=
  fun h => (wordOf_memField h).trans (show wordOf 7 0 = 0x7000 by decide)

theorem EncodeFitsRow.mulImm (f : OpField) : EncodeFitsRow.Statement (.mulImm f) :=
  fun h => (wordOf_immField h).trans (show wordOf 7 0x800 = 0x7800 by decide)

theorem EncodeFitsRow.divMem (f : OpField) : EncodeFitsRow.Statement (.divMem f) :=
  fun h => (wordOf_memField h).trans (show wordOf 8 0 = 0x8000 by decide)

theorem EncodeFitsRow.divImm (f : OpField) : EncodeFitsRow.Statement (.divImm f) :=
  fun h => (wordOf_immField h).trans (show wordOf 8 0x800 = 0x8800 by decide)

theorem EncodeFitsRow.modMem (f : OpField) : EncodeFitsRow.Statement (.modMem f) :=
  fun h => (wordOf_memField h).trans (show wordOf 9 0 = 0x9000 by decide)

theorem EncodeFitsRow.modImm (f : OpField) : EncodeFitsRow.Statement (.modImm f) :=
  fun h => (wordOf_immField h).trans (show wordOf 9 0x800 = 0x9800 by decide)

theorem EncodeFitsRow.neg : EncodeFitsRow.Statement .neg := fun _ => rfl

theorem EncodeFitsRow.nop : EncodeFitsRow.Statement .nop := fun _ => rfl

theorem EncodeFitsRow.jmp (f : OpField) : EncodeFitsRow.Statement (.jmp f) :=
  fun _ => (wordOf_and_opcode _ f).trans (show wordOf 12 0 = 0xC000 by decide)

theorem EncodeFitsRow.jneg (f : OpField) : EncodeFitsRow.Statement (.jneg f) :=
  fun _ => (wordOf_and_opcode _ f).trans (show wordOf 13 0 = 0xD000 by decide)

theorem EncodeFitsRow.jzero (f : OpField) : EncodeFitsRow.Statement (.jzero f) :=
  fun _ => (wordOf_and_opcode _ f).trans (show wordOf 14 0 = 0xE000 by decide)

theorem EncodeFitsRow.halt : EncodeFitsRow.Statement .halt := fun _ => rfl

end Sys2Proof.Laws
end

