-- ==== Sys2Proof/Tests/Slice0.lean ====
section
/-! SUPPORT. The model's own tests. A word of a decoding test is written out bit by bit from the spec's encoding string of its row
(spec/opcode_table.json, the instruction rules R61 to R85). A vector's expected values are those of 95_test_vectors.md, named
V<n>.<m> there. The `witness_` theorems show a state and operands that meet the hypotheses of a statement. -/

namespace Sys2Proof.Tests

open Sys2Proof Sys2Proof.Machine

/-! ## The checks of WellFormed refuse (30_encoding.md R59) -/

theorem test_wf_mem_forms_refuse_flag_set :
    ([Instr.loadMem 0x800, .addMem 0x800, .subMem 0x800, .mulMem 0x800, .divMem 0xFFF, .modMem 0xFFF].any
      Instr.wellFormed) = false := by decide

theorem test_wf_imm_forms_refuse_flag_clear :
    ([Instr.loadImm 0x7FF, .addImm 0x7FF, .subImm 0x000, .mulImm 0x7FF, .divImm 0x000, .modImm 0x7FF].any
      Instr.wellFormed) = false := by decide

/-! ## Decoding, one word per constructor -/

theorem test_decode_endOp : decode 0b0000000000000000#16 = .endOp := by decide
theorem test_decode_endOp_field : decode 0b0000101010111100#16 = .endOp := by decide
theorem test_decode_loadMem : decode 0b0001000000000110#16 = .loadMem 0x006 := by decide
theorem test_decode_loadImm : decode 0b0001100000000101#16 = .loadImm 0x805 := by decide
theorem test_decode_store : decode 0b0010111111111111#16 = .store 0xFFF := by decide
theorem test_decode_read : decode 0b0011000011001000#16 = .read 0x0C8 := by decide
theorem test_decode_write : decode 0b0100010011010010#16 = .write 0x4D2 := by decide
theorem test_decode_addMem : decode 0b0101000011001000#16 = .addMem 0x0C8 := by decide
theorem test_decode_addImm : decode 0b0101100000000011#16 = .addImm 0x803 := by decide
theorem test_decode_subMem : decode 0b0110011111111111#16 = .subMem 0x7FF := by decide
theorem test_decode_subImm : decode 0b0110100000000000#16 = .subImm 0x800 := by decide
theorem test_decode_mulMem : decode 0b0111000011001000#16 = .mulMem 0x0C8 := by decide
theorem test_decode_mulImm : decode 0b0111100000000010#16 = .mulImm 0x802 := by decide
theorem test_decode_divMem : decode 0b1000000000000001#16 = .divMem 0x001 := by decide
theorem test_decode_divImm : decode 0b1000111111111111#16 = .divImm 0xFFF := by decide
theorem test_decode_modMem : decode 0b1001000011001010#16 = .modMem 0x0CA := by decide
theorem test_decode_modImm : decode 0b1001100000000010#16 = .modImm 0x802 := by decide
theorem test_decode_neg : decode 0b1010010110100101#16 = .neg := by decide
theorem test_decode_nop : decode 0b1011100000000000#16 = .nop := by decide
theorem test_decode_jmp : decode 0b1100011111111110#16 = .jmp 0x7FE := by decide
theorem test_decode_jneg : decode 0b1101100000000001#16 = .jneg 0x801 := by decide
theorem test_decode_jzero : decode 0b1110000000011000#16 = .jzero 0x018 := by decide
theorem test_decode_halt : decode 0b1111111111111111#16 = .halt := by decide

/-- The examples of 30_encoding.md R60. -/
theorem test_encode_examples : encode (.loadMem 0x0C8) = 0x10C8 ∧ encode (.loadImm 0x805) = 0x1805 ∧
    encode (.store 0x800) = 0x2800 ∧ encode (.jzero 0x018) = 0xE018 ∧ encode .halt = 0xF000 ∧ encode .endOp = 0x0000 := by
  decide

theorem test_decodeTableWord : decodeTableWord 16 0xE018 = some (.jzero 0x018) ∧ decodeTableWord 8 0xE0 = none := by decide

/-! ## Single steps -/

/-- The start state of 95_test_vectors.md: RUN, PC = 5, the word at index 5, other words as listed. -/
def start (acc : Int) (cells : List (Nat × Word)) (w : Word) : State :=
  { State.reset with
    phase := .run, pc := 5, acc := BitVec.ofInt 32 acc,
    mem := cells.foldl (fun m c => Memory.write m c.1 c.2) (Memory.write [] 5 w) }

/-- The step answers a next state of which `p` holds. -/
def next (s : State) (p : State → Bool) : Bool :=
  match step s with
  | .next t => p t
  | .fault _ => false
  | .refused _ => false

/-- The step takes the fault stop `c` at the instruction at index 5, ACC as it was. -/
def stops (s : State) (c : FCause) : Bool :=
  next s fun t => t.phase == .fault && t.fcause == c && t.pc == 5 && t.acc == s.acc && t.mem == s.mem

/-- V1.6 -/
theorem test_load_mem_zero_extends : next (start (-5) [(1023, 0x8000)] 0x17FE) (fun t => t.acc.toInt == 32768 && t.pc == 6) = true := by decide

/-- V1.5 -/
theorem test_load_mem_odd_field : next (start 0 [(3, 0xBEEF)] 0x1007) (fun t => t.acc.toInt == 48879 && t.ir == 0x1007 && t.opd == 0x007) = true := by decide

/-- V1.3, 90_conflicts.md C1 -/
theorem test_load_imm_keeps_flag_bit : next (start 0 [] 0x1805) (fun t => t.acc.toInt == 2053 && t.pc == 6 && t.opd == 0x805) = true := by decide

/-- V1.10 -/
theorem test_store_truncates : next (start 70000 [] 0x2FFF) (fun t => t.memRead 2047 == 0x1170 && t.acc.toInt == 70000 && t.pc == 6) = true := by decide

/-- V1.12 -/
theorem test_store_over_itself_runs_as_fetched : next (start 61440 [] 0x200A) (fun t => t.memRead 5 == 0xF000 && t.ir == 0x200A && t.opc == 2 && t.phase == .run) = true := by decide

/-- V2.1 -/
theorem test_read_masks_to_12_bits : next { start 7 [] 0x30C8 with input := [0xF005, 0x0001] } (fun t => t.memRead 100 == 0x0005 && t.input == [0x0001] && t.acc.toInt == 7) = true := by decide

/-- V2.4 -/
theorem test_read_without_input : stops (start 0 [] 0x30C8) .inputExhausted = true := by decide

/-- V2.8 -/
theorem test_write_emits_memory_word : next (start 99 [] 0x4800) (fun t => t.output == [0] && t.pc == 6) = true := by decide

/-- V2.10 -/
theorem test_write_appends_at_the_end : next { start 0 [(100, 3)] 0x40C8 with output := [1, 2] } (fun t => t.output == [1, 2, 3]) = true := by decide

/-- V3.3 -/
theorem test_add_mem_beyond_16_bits : next (start 65535 [(100, 0xFFFF)] 0x50C8) (fun t => t.acc.toInt == 131070) = true := by decide

/-- V3.6 -/
theorem test_add_mem_overflow : stops (start 2147483647 [(100, 1)] 0x50C8) .accOverflow = true := by decide

/-- V3.4 -/
theorem test_add_imm_largest_that_fits : next (start 2147481599 [] 0x5800) (fun t => t.acc.toInt == 2147483647 && t.pc == 6) = true := by decide

/-- V3.5 -/
theorem test_add_imm_overflow : stops (start 2147481600 [] 0x5800) .accOverflow = true := by decide

/-- V3.9 -/
theorem test_sub_mem_goes_negative : next (start 5 [(100, 0x0011)] 0x60C8) (fun t => t.acc.toInt == -12) = true := by decide

/-- V3.11 -/
theorem test_sub_imm_smallest_that_fits : next (start (-2147479553) [] 0x6FFF) (fun t => t.acc.toInt == -2147483648 && t.pc == 6) = true := by decide

/-- V3.12 -/
theorem test_sub_imm_overflow : stops (start (-2147479554) [] 0x6FFF) .accOverflow = true := by decide

/-- V3.16 -/
theorem test_mul_mem_negative_by_unsigned : next (start (-32768) [(100, 0xFFFF)] 0x70C8) (fun t => t.acc.toInt == -2147450880) = true := by decide

/-- V3.15 -/
theorem test_mul_mem_overflow : stops (start 46341 [(100, 0xB505)] 0x70C8) .accOverflow = true := by decide

/-- V3.13 -/
theorem test_mul_imm : next (start 3 [] 0x7802) (fun t => t.acc.toInt == 6150) = true := by decide

/-- V3.20 -/
theorem test_div_mem_truncates_toward_zero : next (start (-7) [(100, 2)] 0x80C8) (fun t => t.acc.toInt == -3) = true := by decide

/-- V3.25 -/
theorem test_div_mem_by_zero : stops (start 2048 [] 0x80C8) .divZero = true := by decide

/-- V3.21 -/
theorem test_div_imm : next (start 10000 [] 0x8800) (fun t => t.acc.toInt == 4) = true := by decide

/-- V3.27 -/
theorem test_mod_mem_has_sign_of_acc : next (start (-7) [(100, 2)] 0x90C8) (fun t => t.acc.toInt == -1) = true := by decide

/-- V3.32 -/
theorem test_mod_mem_by_zero : stops (start (-3) [] 0x90C8) .divZero = true := by decide

/-- V3.28 -/
theorem test_mod_imm : next (start 10000 [] 0x9800) (fun t => t.acc.toInt == 1808) = true := by decide

/-- V3.34 -/
theorem test_neg_ignores_field : next (start (-12) [] 0xAFFF) (fun t => t.acc.toInt == 12 && t.opd == 0xFFF && t.pc == 6) = true := by decide

/-- V3.37 -/
theorem test_neg_overflow : stops (start (-2147483648) [] 0xA000) .accOverflow = true := by decide

/-- V4.3 -/
theorem test_jmp_highest_target : next (start 9 [] 0xCFFF) (fun t => t.pc == 2047 && t.acc.toInt == 9) = true := by decide

/-- V4.10 -/
theorem test_jneg_tests_32_bits : next (start 65535 [] 0xD01C) (fun t => t.pc == 6) = true := by decide

/-- V4.9 -/
theorem test_jneg_taken : next (start (-2147483648) [] 0xD800) (fun t => t.pc == 1024) = true := by decide

/-- V4.13 -/
theorem test_jzero_tests_32_bits : next (start 65536 [] 0xE018) (fun t => t.pc == 6) = true := by decide

/-- V4.11 -/
theorem test_jzero_taken : next (start 0 [] 0xE018) (fun t => t.pc == 12) = true := by decide

/-- V5.2 -/
theorem test_end_is_a_no_operation : next (start 3 [] 0x0ABC) (fun t => t.pc == 6 && t.acc.toInt == 3 && t.opd == 0xABC && t.phase == .run) = true := by decide

/-- V5.4 -/
theorem test_nop : next (start 3 [] 0xBFFF) (fun t => t.pc == 6 && t.acc.toInt == 3 && t.opd == 0xFFF) = true := by decide

/-- V5.6 -/
theorem test_halt_leaves_pc : next (start (-3) [] 0xFABC) (fun t => t.phase == .halted && t.pc == 5 && t.opc == 15 && t.opd == 0xABC) = true := by decide

/-- V5.7 -/
theorem test_end_at_2047_gives_pc_2048 : next { start 0 [(2047, 0x0001)] 0 with pc := 2047 } (fun t => t.pc == 2048 && t.phase == .run) = true := by decide

/-- V8.1 -/
theorem test_fetch_past_memory : next { start 7 [] 0 with pc := 2048, ir := 1, opd := 1 } (fun t => t.phase == .fault && t.fcause == .fetchRange && t.pc == 2048 && t.ir == 1 && t.acc.toInt == 7) = true := by decide

/-! ## The loader -/

/-- V7.1 -/
theorem test_loader_empty_input : next State.reset (fun t => t.phase == .run && t.ldptr == 0 && t.mem == []) = true := by
  decide

/-- V7.4, its third step -/
theorem test_loader_stores_sentinel :
    next { State.resetWith [0x0000, 0x0007] with ldptr := 2, mem := [(0, 0x1805), (1, 0xF000)] }
      (fun t => t.phase == .run && t.ldptr == 3 && t.input == [0x0007] && t.mem == [(0, 0x1805), (1, 0xF000)]) = true := by
  decide

/-- V7.5, its first step -/
theorem test_loader_opcode_zero_is_no_sentinel :
    next (State.resetWith [0x0ABC, 0xF000, 0x0000])
      (fun t => t.phase == .load && t.ldptr == 1 && t.memRead 0 == 0x0ABC && t.pc == 0) = true := by decide

/-- V7.9, its last step -/
theorem test_loader_full :
    next { State.resetWith [0x0000] with ldptr := 2048 }
      (fun t => t.phase == .fault && t.fcause == .loadOverflow && t.input == [0x0000] && t.ldptr == 2048) = true := by decide

/-- V8.6 -/
theorem test_stopped_units_take_no_step : next { State.reset with phase := .halted } (fun _ => true) = false ∧
    next { State.reset with phase := .fault, fcause := .divZero } (fun _ => true) = false := by decide

/-- What the host places is what the next step runs. -/
theorem test_withFetchWord : next (State.reset.withFetchWord 16 0x5803)
    (fun t => t.acc.toInt == 2051 && t.pc == 1 && t.ir == 0x5803 && t.mem == [(0, 0x5803)]) = true := by decide

/-! ## The boundary -/

/-- S1 of 95_test_vectors.md -/
theorem test_word_decoder : wordOfToken "0001100000000101".toList = some 0x1805 ∧
    wordOfToken "0001x0000000010a".toList = some 0x1004 ∧ wordOfToken "101".toList = none ∧
    tokenOfWord 0x44D2 = "0100010011010010".toList := by decide

/-- S5 and V2.7 -/
theorem test_output_line : outputLine 1234 = "1234\n".toList ∧ outputLine 0xFFF4 = "65524\n".toList ∧
    outputLine 0 = "0\n".toList := by decide

/-- The dump shows the low byte of a word (70_reset_and_hazards.md R111). -/
theorem test_dump_low_byte : (dumpSegment [(1024, 0xBEEF), (1123, 0x1234)] Config.dataBase).map List.length =
      List.replicate 10 10 ∧
    ((dumpSegment [(1024, 0xBEEF), (1123, 0x1234)] Config.dataBase).flatten.head?,
      (dumpSegment [(1024, 0xBEEF), (1123, 0x1234)] Config.dataBase).flatten.getLast?) =
      (some 0xEF, some 0x34) := by decide

/-! ## Witnesses: the hypotheses of the statements are met, each clause at a boundary of its range -/

theorem witness_DecodeReadsBackEveryEncodedInstruction :
    (Instr.loadMem 0x7FF).wellFormed = true ∧ (Instr.loadImm 0x800).wellFormed = true ∧ Instr.halt.wellFormed = true := by decide

theorem witness_EveryWordFitsExactlyOneRow :
    (0x17FF : Word) &&& (Instr.loadMem 0).rowMask = (Instr.loadMem 0).rowMatch ∧
      (0x1800 : Word) &&& (Instr.loadImm 0).rowMask = (Instr.loadImm 0).rowMatch := by decide

theorem witness_OperandFormsOfAField :
    (0x7FF : OpField).getLsbD 11 = false ∧ (0x800 : OpField).getLsbD 11 = true ∧ (0xFFF : OpField).getLsbD 11 = true := by decide

theorem witness_WordDecoderReadsTokensMsbFirst :
    (List.replicate 16 '1').length = 16 ∧ (List.replicate 15 '1').length ≠ 16 ∧ (List.replicate 17 '1').length ≠ 16 := by decide

theorem witness_LoaderStepStoresOneWordOrHandsOver :
    State.reset.phase = .load ∧ State.reset.input = [] ∧ State.reset.pc = 0 := by decide

theorem witness_LoaderStep_full : ∃ (s : State) (w : Word) (rest : List Word),
    s.phase = .load ∧ s.input = w :: rest ∧ s.ldptr.toNat = 2048 :=
  ⟨{ State.resetWith [1] with ldptr := 2048 }, 1, [], by decide⟩

theorem witness_LoaderStep_last_free : ∃ (s : State) (w : Word) (rest : List Word),
    s.phase = .load ∧ s.input = w :: rest ∧ s.ldptr.toNat < 2048 ∧ s.ldptr.toNat = 2047 :=
  ⟨{ State.resetWith [1] with ldptr := 2047 }, 1, [], by decide⟩

theorem witness_LoaderStep_next : ∃ s t : State, s.phase = .load ∧ step s = .next t ∧ s.pc = 0 :=
  ⟨State.reset, _, rfl, rfl, rfl⟩

theorem witness_RunStep_past_memory : ∃ s : State, s.phase = .run ∧ 2048 ≤ s.pc.toNat ∧ s.pc.toNat = 2048 :=
  ⟨{ start 0 [] 0 with pc := 2048 }, by decide⟩

theorem witness_RunStep_last_word : ∃ (s : State) (idx : WIdx) (w : Word) (i : Instr), s.phase = .run ∧
    s.pc.toNat = idx.toNat ∧ s.memRead idx = w ∧ decode w = i ∧ i.wellFormed = true ∧ idx = 2047 :=
  ⟨{ start 0 [(2047, 0x1805)] 0 with pc := 2047 }, 2047, 0x1805, .loadImm 0x805, by decide⟩

theorem witness_RunStep_halt : ∃ (s : State) (idx : WIdx) (w : Word), s.phase = .run ∧ s.pc.toNat = idx.toNat ∧
    s.memRead idx = w ∧ w.extractLsb' 12 4 = 15 :=
  ⟨start 0 [] 0xF000, 5, 0xF000, by decide⟩

theorem witness_StoppedUnitTakesNoStep : ∃ s u : State, s.phase = .halted ∧ u.phase = .fault :=
  ⟨{ State.reset with phase := .halted }, { State.reset with phase := .fault }, by decide⟩

theorem witness_LoadAndRunAlwaysTakeAStep : ∃ s u : State, s.phase = .load ∧ u.phase = .run :=
  ⟨State.reset, start 0 [] 0, by decide⟩

theorem witness_LoadingAlwaysEnds : ∃ s : State, s.phase = .load ∧ s.input ≠ [] := ⟨State.resetWith [1, 0], by decide⟩

theorem witness_LoaderPlacesTheImageFromIndexZero : ∃ image : List Word,
    (∀ w ∈ image, w ≠ 0) ∧ image.length < 2048 ∧ image.length = 2047 :=
  ⟨List.replicate 2047 0x1805, fun w h => by rw [List.eq_of_mem_replicate h]; decide,
    by rw [List.length_replicate]; omega, List.length_replicate⟩

theorem witness_LoadResult_words :
    (0x17FF : Word) &&& 0xF800 = 0x1000 ∧ (0x1FFF : Word) &&& 0xF800 = 0x1800 := by decide

theorem witness_AddResult_words :
    (0x57FF : Word) &&& 0xF800 = 0x5000 ∧ (0x5FFF : Word) &&& 0xF800 = 0x5800 := by decide

theorem witness_SubResult_words :
    (0x67FF : Word) &&& 0xF800 = 0x6000 ∧ (0x6FFF : Word) &&& 0xF800 = 0x6800 := by decide

theorem witness_MulResult_words :
    (0x77FF : Word) &&& 0xF800 = 0x7000 ∧ (0x7FFF : Word) &&& 0xF800 = 0x7800 := by decide

theorem witness_DivResult_words :
    (0x87FF : Word) &&& 0xF800 = 0x8000 ∧ (0x8FFF : Word) &&& 0xF800 = 0x8800 := by decide

theorem witness_ModResult_words :
    (0x97FF : Word) &&& 0xF800 = 0x9000 ∧ (0x9FFF : Word) &&& 0xF800 = 0x9800 := by decide

theorem witness_memory_and_immediate_fields :
    memFieldOk 0x000 = true ∧ memFieldOk 0x7FF = true ∧ immFieldOk 0x800 = true ∧ immFieldOk 0xFFF = true := by decide

theorem witness_StoreResult_words :
    (0x2FFF : Word) &&& 0xF000 = 0x2000 := by decide

theorem witness_ReadResult_words :
    (0x3FFF : Word) &&& 0xF000 = 0x3000 := by decide

theorem witness_WriteResult_words :
    (0x4FFF : Word) &&& 0xF000 = 0x4000 := by decide

theorem witness_NegResult_words :
    (0xAFFF : Word) &&& 0xF000 = 0xA000 := by decide

theorem witness_JmpResult_words :
    (0xCFFF : Word) &&& 0xF000 = 0xC000 := by decide

theorem witness_JnegResult_words :
    (0xDFFF : Word) &&& 0xF000 = 0xD000 := by decide

theorem witness_JzeroResult_words :
    (0xEFFF : Word) &&& 0xF000 = 0xE000 := by decide

theorem witness_HaltResult_words :
    (0xFFFF : Word) &&& 0xF000 = 0xF000 := by decide

theorem witness_EndAndNopOnlyAdvance :
    (0x0FFF : Word) &&& 0xF000 = 0x0000 ∧ (0xB000 : Word) &&& 0xF000 = 0xB000 := by decide

theorem witness_StoreThenLoadKeepsTheLowWord : memFieldOk 0x7FF = true := by decide

theorem witness_StoreResult_other_word : ∃ (f : OpField) (a : WIdx), a ≠ widx f := ⟨0xFFF, 0, by decide⟩

theorem witness_ReadResult : ∃ s u : State, s.input = [] ∧ u.input = 0xF005 :: [1] :=
  ⟨State.reset, State.resetWith [0xF005, 1], by decide⟩

/-- Both sides of the range of ACC, at its upper end, for ADD. -/
theorem witness_AddResult : ∃ (s : State) (f : OpField), memFieldOk f = true ∧
    Claims.InRange (s.acc.toInt + (s.memRead (widx f)).toNat) ∧ ¬ Claims.InRange (s.acc.toInt + (s.memRead (widx 0x00C)).toNat) :=
  ⟨start 2147483647 [(6, 1)] 0, 0x7FE, by unfold Claims.InRange; decide⟩

theorem witness_AddResult_imm : ∃ (s u : State) (f : OpField), immFieldOk f = true ∧
    Claims.InRange (s.acc.toInt + f.toNat) ∧ ¬ Claims.InRange (u.acc.toInt + f.toNat) :=
  ⟨start 2147481599 [] 0, start 2147481600 [] 0, 0x800, by unfold Claims.InRange; decide⟩

/-- Both sides of the range of ACC, at its lower end, for SUB. -/
theorem witness_SubResult : ∃ (s : State) (f : OpField), memFieldOk f = true ∧
    Claims.InRange (s.acc.toInt - (s.memRead (widx f)).toNat) ∧ ¬ Claims.InRange (s.acc.toInt - (s.memRead (widx 0x00C)).toNat) :=
  ⟨start (-2147483648) [(6, 1)] 0, 0x7FE, by unfold Claims.InRange; decide⟩

theorem witness_SubResult_imm : ∃ (s u : State) (f : OpField), immFieldOk f = true ∧
    Claims.InRange (s.acc.toInt - f.toNat) ∧ ¬ Claims.InRange (u.acc.toInt - f.toNat) :=
  ⟨start (-2147479553) [] 0, start (-2147479554) [] 0, 0xFFF, by unfold Claims.InRange; decide⟩

theorem witness_MulResult : ∃ (s u : State) (f : OpField), memFieldOk f = true ∧
    Claims.InRange (s.acc.toInt * (s.memRead (widx f)).toNat) ∧ ¬ Claims.InRange (u.acc.toInt * (u.memRead (widx f)).toNat) :=
  ⟨start (-32768) [(6, 0xFFFF)] 0, start (-32769) [(6, 0xFFFF)] 0, 0x00C, by unfold Claims.InRange; decide⟩

theorem witness_MulResult_imm : ∃ (s u : State) (f : OpField), immFieldOk f = true ∧
    Claims.InRange (s.acc.toInt * f.toNat) ∧ ¬ Claims.InRange (u.acc.toInt * f.toNat) :=
  ⟨start (-1048576) [] 0, start 1048576 [] 0, 0x800, by unfold Claims.InRange; decide⟩

theorem witness_DivResult_and_ModResult : ∃ (s : State) (f g : OpField), memFieldOk f = true ∧ s.memRead (widx f) = 0 ∧
    memFieldOk g = true ∧ s.memRead (widx g) ≠ 0 ∧ s.acc.toInt < 0 :=
  ⟨start (-7) [(6, 1)] 0, 0x000, 0x00C, by decide⟩

theorem witness_NegResult : ∃ s u : State, s.acc.toInt ≠ -2147483648 ∧ s.acc.toInt = -2147483647 ∧
    u.acc.toInt = -2147483648 :=
  ⟨start (-2147483647) [] 0, start (-2147483648) [] 0, by decide⟩

theorem witness_NegTwiceRestoresTheAccumulator : ∃ s : State, s.acc.toInt ≠ -2147483648 := ⟨start 2147483647 [] 0, by decide⟩

theorem witness_JnegResult : ∃ s u : State, s.acc.toInt < 0 ∧ s.acc.toInt = -1 ∧ 0 ≤ u.acc.toInt ∧ u.acc.toInt = 0 :=
  ⟨start (-1) [] 0, start 0 [] 0, by decide⟩

theorem witness_JzeroResult : ∃ s u : State, s.acc.toInt = 0 ∧ u.acc.toInt ≠ 0 ∧ u.acc.toInt = -1 :=
  ⟨start 0 [] 0, start (-1) [] 0, by decide⟩

theorem witness_OnlyHaltEntersHalted : ∃ s t : State, step s = .next t ∧ t.phase = .halted :=
  ⟨start 0 [] 0xF000, _, rfl, rfl⟩

theorem witness_ExecLeavesOtherMemoryWords : ∃ (s t : State) (a : WIdx), exec (.store 0x800) s = .next t ∧
    Claims.storeTarget (.store 0x800) ≠ some a :=
  ⟨start 7 [] 0, _, 1023, rfl, by decide⟩

theorem witness_ExecLeavesOtherRegisters : ∃ s t : State, exec .nop s = .next t ∧ ¬ Claims.writesAcc Instr.nop.opcode ∧
    Instr.nop.opcode ≠ 3 ∧ Instr.nop.opcode ≠ 4 ∧ Instr.nop.opcode ≠ 15 :=
  ⟨start 7 [] 0, _, rfl, by unfold Claims.writesAcc; decide⟩

theorem witness_OnlyAccumulatorOpcodesChangeAcc : ∃ s t : State, step s = .next t ∧ t.acc ≠ s.acc :=
  ⟨start 0 [] 0x1805, _, rfl, by decide⟩

/-- A step of each kind that the statements about every step speak of: a loader step and a run step. -/
theorem witness_statements_about_every_step : ∃ s t u v : State, s.phase = .load ∧ step s = .next t ∧
    Memory.wf s.mem ∧ u.phase = .run ∧ step u = .next v ∧ Memory.wf u.mem :=
  ⟨State.resetWith [1], _, start 0 [] 0x1805, _, rfl, rfl, by decide, rfl, rfl, by decide⟩

theorem witness_PcUpdate_past_memory : ∃ s t : State, s.phase = .run ∧ step s = .next t ∧ 2048 ≤ s.pc.toNat ∧
    s.pc.toNat ≤ 2048 ∧ t.phase ≠ .run :=
  ⟨{ start 0 [] 0 with pc := 2048 }, _, rfl, rfl, by decide⟩

theorem witness_PcUpdate_halt : ∃ s t : State, s.phase = .run ∧ step s = .next t ∧ t.opc = 15 :=
  ⟨start 0 [] 0xF000, _, rfl, rfl, by decide⟩

theorem witness_PcUpdate_advance : ∃ s t : State, s.phase = .run ∧ step s = .next t ∧ t.phase = .run ∧ t.opc.toNat ≤ 11 ∧
    s.pc.toNat = 2047 :=
  ⟨{ start 0 [(2047, 0xB000)] 0 with pc := 2047 }, _, rfl, rfl, by decide⟩

theorem witness_PcUpdate_jmp : ∃ s t : State, s.phase = .run ∧ step s = .next t ∧ t.phase = .run ∧ t.opc = 12 :=
  ⟨start 0 [] 0xCFFF, _, rfl, rfl, by decide⟩

theorem witness_PcUpdate_jneg : ∃ s t : State, s.phase = .run ∧ step s = .next t ∧ t.phase = .run ∧ t.opc = 13 :=
  ⟨start (-1) [] 0xD01C, _, rfl, rfl, by decide⟩

theorem witness_PcUpdate_jzero : ∃ s t : State, s.phase = .run ∧ step s = .next t ∧ t.phase = .run ∧ t.opc = 14 :=
  ⟨start 0 [] 0xE018, _, rfl, rfl, by decide⟩

theorem witness_FaultStop_execute_stage : ∃ s t : State, step s = .next t ∧ t.phase = .fault ∧ t.fcause ≠ .fetchRange ∧
    t.fcause ≠ .loadOverflow :=
  ⟨start 2048 [] 0x80C8, _, rfl, by decide⟩

theorem witness_FaultStop_fetch : ∃ s t : State, step s = .next t ∧ t.phase = .fault ∧ t.fcause = .fetchRange :=
  ⟨{ start 0 [] 0 with pc := 2048 }, _, rfl, by decide⟩

/-- LDPTR at the end of its range, with each cause raised once by the vectors above and this one. -/
theorem witness_FaultCauses : ∃ s t : State, s.ldptr.toNat ≤ 2048 ∧ step s = .next t ∧ t.phase = .fault ∧
    t.fcause = .loadOverflow :=
  ⟨{ State.resetWith [1] with ldptr := 2048 }, _, by decide, rfl, by decide⟩

theorem witness_OutputLdptrAndCauseAreUnobservable : ∃ s t : State, s.phase = .run ∧ step s = .next t ∧ t.output ≠ s.output :=
  ⟨start 0 [] 0x4800, _, rfl, rfl, by decide⟩

theorem witness_NextFetchSeesTheStore : ∃ (s : State) (f : OpField), s.phase = .run ∧ s.pc.toNat < 2047 ∧
    s.fetchWord = encode (.store f) ∧ (widx f).toNat = s.pc.toNat + 1 :=
  ⟨{ start 0 [(2046, 0x2FFE)] 0 with pc := 2046 }, 0xFFE, by decide⟩

theorem witness_CanonicalMemoriesAreEqualWhenTheyReadAlike : ∃ m n : Memory, Memory.wf m ∧ Memory.wf n ∧ m ≠ [] ∧
    ∀ a, a < 2048 → Memory.read m a = Memory.read n a :=
  ⟨[(2047, 1)], [(2047, 1)], by decide, by decide, by decide, fun _ _ => rfl⟩

theorem witness_OpcAndOpdAreThePartsOfIr : ∃ s t : State, s.opc = s.ir.extractLsb' 12 4 ∧ s.opd = s.ir.extractLsb' 0 12 ∧
    step s = .next t :=
  ⟨start 0 [] 0x1805, _, by decide, by decide, rfl⟩

/-- A state of a run, past its loading, that meets the invariant: not the reset state. -/
theorem witness_StepKeepsTheInvariant : ∃ s t : State, s.Inv ∧ step s = .next t ∧ s.phase = .run :=
  ⟨start 2048 [] 0x80C8, _, ⟨by decide, by decide, by decide, by decide, by decide, fun h => absurd h (by decide),
    fun h => absurd h (by decide), fun h => absurd h (by decide)⟩, rfl, rfl⟩

theorem witness_HostReadsStateOnlyAfterTheStop : ∃ (s : State) (o : Observation) (v : FinalState),
    s.observe = some o ∧ s.readFinal = some v ∧ v.ldptr = 2 :=
  ⟨{ State.reset with phase := .halted, ldptr := 2 }, _, _, rfl, rfl, rfl⟩

end Sys2Proof.Tests
end

/-! PROOFS of the family 10_state.md. First what every later proof cites: what a decoded word fixes of its instruction, and all
that an instruction can do. -/

namespace Sys2Proof.Proofs

open Sys2Proof.Machine

/-! ## What a word fixes of the instruction it decodes to (30_encoding.md R49 to R55) -/

/-- END, NEG, NOP and HALT ignore their operand field (R54). -/
def ignoresField (opc : OpCode) : Bool := opc == 0 || opc == 10 || opc == 11 || opc == 15

theorem opcodeField_eq_of_toNat {w : Word} {n : Nat} (h : (opcodeField w).toNat = n) :
    opcodeField w = BitVec.ofNat 4 n := by
  rw [← h, BitVec.ofNat_toNat, BitVec.setWidth_eq]

/-- Opcode 15 is the only value that the arms 0 to 14 of `decode` leave. -/
theorem opcodeField_eq_fifteen {w : Word} (h : ∀ n < 15, (opcodeField w).toNat ≠ n) : opcodeField w = 15 := by
  have hlt := (opcodeField w).isLt
  have hge : ¬ (opcodeField w).toNat < 15 := fun hc => h _ hc rfl
  exact opcodeField_eq_of_toNat (n := 15) (by omega)

theorem operandField_flagBit (w : Word) : (operandField w).getLsbD Config.flagBit = modeFlag w := by
  simp [operandField, modeFlag]

/-- The instruction has the opcode, the operand field and the mode of the word. -/
structure Fits (w : Word) (i : Instr) : Prop where
  opcode : i.opcode = opcodeField w
  wellFormed : i.wellFormed = true
  field : ignoresField i.opcode = false → i.field = operandField w

theorem decode_fits (w : Word) : Fits w (decode w) := by
  have hflag := operandField_flagBit w
  unfold decode
  dsimp only
  split
  case h_16 =>
    have hopc : opcodeField w = 15 := opcodeField_eq_fifteen fun n hn => by interval_cases n <;> assumption
    exact ⟨hopc.symm, rfl, fun h => absurd h (by decide)⟩
  all_goals
    rename_i hnat
    have hopc := opcodeField_eq_of_toNat hnat
    constructor <;> cases hm : modeFlag w <;>
      simp_all [Instr.opcode, Instr.wellFormed, Instr.field, memFieldOk, immFieldOk, ignoresField]

theorem decode_opcode (w : Word) : (decode w).opcode = opcodeField w := (decode_fits w).opcode

theorem decode_wellFormed (w : Word) : (decode w).wellFormed = true := (decode_fits w).wellFormed

theorem operandField_of_decode {w : Word} {i : Instr} (h : decode w = i) (hi : ignoresField i.opcode = false) :
    operandField w = i.field := by
  subst h
  exact ((decode_fits w).field hi).symm

/-! ## All that an instruction can do -/

/-- The jumps that are taken: JMP, and JNEG and JZERO where their test holds (43_control_transfer.md R80 to R82). -/
def TakesJump (i : Instr) (s : State) : Prop :=
  i.opcode = 12 ∨ i.opcode = 13 ∧ s.acc.toInt < 0 ∨ i.opcode = 14 ∧ s.acc.toInt = 0

/-- The instruction completes: PHASE stays, and one of these updates is made. -/
inductive Completes (i : Instr) (s : State) : State → Prop
  | advances (hi : i.opcode = 0 ∨ i.opcode = 11 ∨ i.opcode = 13 ∨ i.opcode = 14) (hj : ¬ TakesJump i s) :
      Completes i s s.advancePc
  | jumps (hj : TakesJump i s) : Completes i s (s.setPc (target i.field))
  | setsAcc (v : Acc) (hi : Claims.writesAcc i.opcode) : Completes i s (s.setAcc v).advancePc
  | stores (f : OpField) (hi : i = .store f) : Completes i s (s.memWrite (widx f) (trunc16 s.acc)).advancePc
  | reads (f : OpField) (w : Word) (rest : List Word) (hi : i = .read f) (hin : s.input = w :: rest) :
      Completes i s ((s.setInput rest).memWrite (widx f) (w &&& Config.readMask)).advancePc
  | writes (f : OpField) (hi : i = .write f) : Completes i s (s.outPush (s.memRead (widx f))).advancePc

/-- The instruction raises the fault (60_exceptions.md R91 to R93). An immediate divisor is zero for no word (R59). -/
inductive Raises (i : Instr) (s : State) : FCause → Prop
  | overflow (hi : i.opcode = 5 ∨ i.opcode = 6 ∨ i.opcode = 7 ∨ i.opcode = 10) : Raises i s .accOverflow
  | zeroWord (f : OpField) (hi : i = .divMem f ∨ i = .modMem f) (hz : s.memRead (widx f) = 0) : Raises i s .divZero
  | zeroImm (f : OpField) (hi : i = .divImm f ∨ i = .modImm f) (hz : srcImm f = 0) : Raises i s .divZero
  | exhausted (f : OpField) (hi : i = .read f) (hin : s.input = []) : Raises i s .inputExhausted

/-- The three ways an instruction ends. -/
def Ends (i : Instr) (s t : State) : Prop :=
  Completes i s t ∨ (i = .halt ∧ t = s.setPhase .halted) ∨ ∃ c, Raises i s c ∧ t = s.raiseFault c

section
variable {i : Instr} {s t : State}

theorem ends_of_loadAcc {src : Word} (hi : i.opcode = 1) (h : loadAcc src s = .next t) : Ends i s t := by
  rw [loadAcc_next h]
  exact .inl (.setsAcc _ (.inl hi))

theorem ends_of_finishChecked {r : Int} (hi : i.opcode = 5 ∨ i.opcode = 6 ∨ i.opcode = 7 ∨ i.opcode = 10)
    (h : finishChecked r s = .next t) : Ends i s t := by
  rcases finishChecked_cases h with ⟨-, rfl⟩ | ⟨-, rfl⟩
  · exact .inl (.setsAcc _ (by unfold Claims.writesAcc; tauto))
  · exact .inr (.inr ⟨_, .overflow hi, rfl⟩)

theorem ends_of_finishDivision {src : Word} {r : Int} (hi : i.opcode = 8 ∨ i.opcode = 9)
    (hz : src = 0 → Raises i s .divZero) (h : finishDivision src r s = .next t) : Ends i s t := by
  rcases finishDivision_cases h with ⟨h0, rfl⟩ | ⟨-, rfl⟩
  · exact .inr (.inr ⟨_, hz h0, rfl⟩)
  · exact .inl (.setsAcc _ (by unfold Claims.writesAcc; tauto))

theorem ends_of_execRead {f : OpField} (h : execRead f s = .next t) : Ends (.read f) s t := by
  rcases execRead_cases h with ⟨hin, rfl⟩ | ⟨w, rest, hin, rfl⟩
  · exact .inr (.inr ⟨_, .exhausted f rfl hin, rfl⟩)
  · exact .inl (.reads f w rest rfl hin)

theorem ends_of_jumpIf {c : Bool} (hi : i.opcode = 13 ∨ i.opcode = 14) (hc : c = true ↔ TakesJump i s)
    (h : jumpIf c i.field s = .next t) : Ends i s t := by
  rcases jumpIf_cases h with ⟨ht, rfl⟩ | ⟨hf, rfl⟩
  · exact .inl (.jumps (hc.1 ht))
  · exact .inl (.advances (by tauto) fun hj => by simp [hc.2 hj] at hf)

theorem accNegative_iff_takesJump (f : OpField) : s.accNegative = true ↔ TakesJump (.jneg f) s := by
  simp [State.accNegative, TakesJump, Instr.opcode]

theorem accZero_iff_takesJump (f : OpField) : s.accZero = true ↔ TakesJump (.jzero f) s := by
  simp [State.accZero, TakesJump, Instr.opcode, ← BitVec.toInt_inj]

theorem not_takesJump_of_writesAcc (hi : Claims.writesAcc i.opcode) : ¬ TakesJump i s := by
  unfold TakesJump
  rcases hi with hi | hi | hi | hi | hi | hi | hi <;> simp [hi]

/-- Whatever an instruction answers with, it completes, halts or raises a fault. -/
theorem exec_ends (h : exec i s = .next t) : Ends i s t := by
  cases i with
  | loadMem f | loadImm f => exact ends_of_loadAcc rfl h
  | addMem f | addImm f => exact ends_of_finishChecked (.inl rfl) h
  | subMem f | subImm f => exact ends_of_finishChecked (.inr (.inl rfl)) h
  | mulMem f | mulImm f => exact ends_of_finishChecked (.inr (.inr (.inl rfl))) h
  | neg => exact ends_of_finishChecked (.inr (.inr (.inr rfl))) h
  | divMem f => exact ends_of_finishDivision (.inl rfl) (fun hz => .zeroWord f (.inl rfl) hz) h
  | divImm f => exact ends_of_finishDivision (.inl rfl) (fun hz => .zeroImm f (.inl rfl) hz) h
  | modMem f => exact ends_of_finishDivision (.inr rfl) (fun hz => .zeroWord f (.inr rfl) hz) h
  | modImm f => exact ends_of_finishDivision (.inr rfl) (fun hz => .zeroImm f (.inr rfl) hz) h
  | read f => exact ends_of_execRead h
  | jneg f => exact ends_of_jumpIf (.inl rfl) (accNegative_iff_takesJump f) h
  | jzero f => exact ends_of_jumpIf (.inr rfl) (accZero_iff_takesJump f) h
  | store f => cases h; exact .inl (.stores f rfl)
  | write f => cases h; exact .inl (.writes f rfl)
  | jmp f => cases h; exact .inl (.jumps (.inl rfl))
  | endOp => cases h; exact .inl (.advances (.inl rfl) (by simp [TakesJump, Instr.opcode]))
  | nop => cases h; exact .inl (.advances (.inr (.inl rfl)) (by simp [TakesJump, Instr.opcode]))
  | halt => cases h; exact .inr (.inl ⟨rfl, rfl⟩)

end

/-! ## What a completed instruction leaves, and what it can change -/

namespace Completes
variable {i : Instr} {s t : State}

theorem ir_eq (h : Completes i s t) : t.ir = s.ir := by cases h <;> rfl
theorem opc_eq (h : Completes i s t) : t.opc = s.opc := by cases h <;> rfl
theorem opd_eq (h : Completes i s t) : t.opd = s.opd := by cases h <;> rfl
theorem phase_eq (h : Completes i s t) : t.phase = s.phase := by cases h <;> rfl
theorem fcause_eq (h : Completes i s t) : t.fcause = s.fcause := by cases h <;> rfl
theorem ldptr_eq (h : Completes i s t) : t.ldptr = s.ldptr := by cases h <;> rfl

theorem acc_eq (h : Completes i s t) (hi : ¬ Claims.writesAcc i.opcode) : t.acc = s.acc := by
  cases h with
  | setsAcc v hw => exact absurd hw hi
  | _ => rfl

theorem input_cases (h : Completes i s t) :
    t.input = s.input ∨ i.opcode = 3 ∧ ∃ w, s.input = w :: t.input := by
  cases h with
  | reads f w rest hi hin => exact .inr ⟨by rw [hi]; rfl, w, hin⟩
  | _ => exact .inl rfl

theorem output_cases (h : Completes i s t) :
    t.output = s.output ∨ ∃ f, i = .write f ∧ t.output = s.output ++ [s.memRead (widx f)] := by
  cases h with
  | writes f hi => exact .inr ⟨f, hi, rfl⟩
  | _ => exact .inl rfl

theorem wf_mem (h : Completes i s t) (hm : Memory.wf s.mem) : Memory.wf t.mem := by
  cases h with
  | stores f => exact State.wf_memWrite (s := s) _ _ hm
  | reads f w rest => exact State.wf_memWrite (s := s.setInput rest) _ _ hm
  | _ => exact hm

theorem opcode_ne_halt (h : Completes i s t) : i.opcode ≠ 15 := by
  intro h15
  cases h with
  | advances hi hj => simp [h15] at hi
  | jumps hj => simp [TakesJump, h15] at hj
  | setsAcc v hi => simp [Claims.writesAcc, h15] at hi
  | stores f hi | reads f w rest hi | writes f hi => subst hi; simp [Instr.opcode] at h15

theorem pc_eq_target (h : Completes i s t) (hj : TakesJump i s) : t.pc = target i.field := by
  cases h with
  | advances hi hn => exact absurd hj hn
  | jumps => rfl
  | setsAcc v hi => exact absurd hj (not_takesJump_of_writesAcc hi)
  | stores f hi | reads f w rest hi | writes f hi => subst hi; simp [TakesJump, Instr.opcode] at hj

theorem pc_eq_succ (h : Completes i s t) (hj : ¬ TakesJump i s) : t.pc = s.pc + 1 := by
  cases h with
  | jumps ht => exact absurd ht hj
  | _ => rfl

end Completes

end Sys2Proof.Proofs

/-! PROOFS of the family 10_state.md, continued: all that a step can do, then the statements. -/

namespace Sys2Proof.Proofs

open Sys2Proof.Machine

/-! ## All that a step can do (70_reset_and_hazards.md R101, R102, R104) -/

section
variable {i : Instr} {s t : State}

theorem Ends.latched_eq (h : Ends i s t) : t.ir = s.ir ∧ t.opc = s.opc ∧ t.opd = s.opd := by
  rcases h with hc | ⟨-, rfl⟩ | ⟨c, -, rfl⟩
  · exact ⟨hc.ir_eq, hc.opc_eq, hc.opd_eq⟩
  · exact ⟨rfl, rfl, rfl⟩
  · exact ⟨rfl, rfl, rfl⟩

theorem loaderStep_keeps (h : loaderStep s = .next t) :
    t.acc = s.acc ∧ t.ir = s.ir ∧ t.opc = s.opc ∧ t.opd = s.opd ∧ t.output = s.output := by
  rcases loaderStep_cases h with ⟨-, rfl⟩ | ⟨-, -, rfl⟩ | ⟨w, rest, -, -, ⟨-, rfl⟩ | ⟨-, rfl⟩⟩ <;>
    exact ⟨rfl, rfl, rfl, rfl, rfl⟩

theorem step_of_run (hp : s.phase = .run) : step s = runStep s := by
  simp [step, hp]

theorem step_of_past_memory (hp : s.phase = .run) (hpc : Config.memWords ≤ s.pc.toNat) :
    step s = .next (s.raiseFault .fetchRange) := by
  rw [step_of_run hp, runStep, if_neg (by simpa [State.pcInRange] using hpc)]

/-- A step is a loader step, the stop past the memory, or the end of the instruction fetched. -/
theorem step_ends (h : step s = .next t) :
    (s.phase = .load ∧ loaderStep s = .next t) ∨
      s.phase = .run ∧
        ((Config.memWords ≤ s.pc.toNat ∧ t = s.raiseFault .fetchRange) ∨
          (s.pc.toNat < Config.memWords ∧ Ends (decode s.fetchWord) (s.latch s.fetchWord) t)) := by
  rcases step_cases h with hl | ⟨hp, hr⟩
  · exact .inl hl
  · exact .inr ⟨hp, (runStep_cases hr).imp_right fun ⟨hpc, he⟩ => ⟨hpc, exec_ends he⟩⟩

theorem Completes.opc_decode {w : Word} (h : Completes (decode w) (s.latch w) t) : t.opc = (decode w).opcode :=
  h.opc_eq.trans (decode_opcode w).symm

theorem Completes.opd_decode {w : Word} (h : Completes (decode w) (s.latch w) t)
    (hi : ignoresField (decode w).opcode = false) : t.opd = (decode w).field :=
  h.opd_eq.trans (operandField_of_decode rfl hi)

theorem advanced_pc_toNat (hpc : s.pc.toNat < Config.memWords) : (s.pc + 1).toNat = s.pc.toNat + 1 := by
  unfold Config.memWords at hpc
  rw [BitVec.toNat_add]
  exact Nat.mod_eq_of_lt (show s.pc.toNat + 1 < 4096 by omega)

theorem target_toNat (f : OpField) : (target f).toNat = f.toNat / 2 := by
  simp [target, Nat.shiftRight_eq_div_pow]

theorem Completes.pc_le (h : Completes i s t) (hpc : s.pc.toNat < Config.memWords) : t.pc.toNat ≤ Config.memWords := by
  by_cases hj : TakesJump i s
  · rw [h.pc_eq_target hj, target_toNat]
    have hf := i.field.isLt
    unfold Config.memWords
    omega
  · rw [h.pc_eq_succ hj, advanced_pc_toNat hpc]
    exact hpc

end

/-! ## The invariant -/

section
variable {s t : State}

theorem opcodeField_zero : opcodeField 0 = 0 := by decide

theorem operandField_zero : operandField 0 = 0 := by decide

/-- The state right after reset meets the invariant, whatever the input. -/
theorem inv_resetWith (input : List Word) : (State.resetWith input).Inv where
  memory := Memory.wf_nil
  latched := ⟨opcodeField_zero.symm, operandField_zero.symm⟩
  cause := by simp [State.resetWith]
  pcRange := Nat.zero_le _
  ldptrRange := Nat.zero_le _
  loading := fun _ => ⟨rfl, rfl, rfl, rfl, fun _ _ => rfl⟩
  halted := fun h => by simp [State.resetWith] at h
  faulted := fun h => by simp [State.resetWith] at h

/-- The loader hands over to the run phase. -/
theorem inv_setPhase_run (hs : s.Inv) (hp : s.phase = .load) : (s.setPhase .run).Inv where
  memory := hs.memory
  latched := hs.latched
  cause := by simp [hs.cause, hp]
  pcRange := hs.pcRange
  ldptrRange := hs.ldptrRange
  loading := nofun
  halted := nofun
  faulted := nofun

theorem inv_loadOverflow (hs : s.Inv) (hp : s.phase = .load) (hin : s.input ≠ [])
    (hl : Config.memWords ≤ s.ldptr.toNat) : (s.raiseFault .loadOverflow).Inv where
  memory := hs.memory
  latched := hs.latched
  cause := by simp
  pcRange := hs.pcRange
  ldptrRange := hs.ldptrRange
  loading := nofun
  halted := nofun
  faulted := fun _ => ⟨le_antisymm hs.ldptrRange hl, hin, (hs.loading hp).2.1⟩

theorem ldIndex_toNat (hl : s.ldptr.toNat < Config.memWords) : s.ldIndex.toNat = s.ldptr.toNat := by
  rw [State.ldIndex, BitVec.toNat_setWidth]
  exact Nat.mod_eq_of_lt hl

theorem advanced_ldptr_toNat (hl : s.ldptr.toNat < Config.memWords) : (s.ldptr + 1).toNat = s.ldptr.toNat + 1 := by
  unfold Config.memWords at hl
  rw [BitVec.toNat_add]
  exact Nat.mod_eq_of_lt (show s.ldptr.toNat + 1 < 4096 by omega)

/-- The loader stores one word at LDPTR and stays in LOAD. -/
theorem inv_loadWord (hs : s.Inv) (hp : s.phase = .load) (hl : s.ldptr.toNat < Config.memWords) (w : Word)
    (rest : List Word) : (((s.setInput rest).memWrite s.ldIndex w).setLdptr (s.ldptr + 1)).Inv where
  memory := State.wf_memWrite (s := s.setInput rest) _ _ hs.memory
  latched := hs.latched
  cause := hs.cause
  pcRange := hs.pcRange
  ldptrRange := (advanced_ldptr_toNat hl).trans_le hl
  loading := by
    intro _
    obtain ⟨hacc, hpc, hir, hout, hzero⟩ := hs.loading hp
    refine ⟨hacc, hpc, hir, hout, fun a ha => ?_⟩
    rw [State.setLdptr_ldptr, advanced_ldptr_toNat hl] at ha
    have hne : a ≠ s.ldIndex := by
      rintro rfl
      rw [ldIndex_toNat hl] at ha
      omega
    rw [State.memRead_setLdptr, State.memRead_memWrite_of_ne _ _ hne]
    exact hzero a (by omega)
  halted := fun h => by simp [hp] at h
  faulted := fun h => by simp [hp] at h

theorem inv_loaderStep (hs : s.Inv) (hp : s.phase = .load) (h : loaderStep s = .next t) : t.Inv := by
  rcases loaderStep_cases h with ⟨-, rfl⟩ | ⟨hin, hl, rfl⟩ | ⟨w, rest, -, hl, ⟨-, rfl⟩ | ⟨-, rfl⟩⟩
  · exact inv_setPhase_run hs hp
  · exact inv_loadOverflow hs hp hin hl
  · exact inv_setPhase_run (inv_loadWord hs hp hl w rest) hp
  · exact inv_loadWord hs hp hl w rest

theorem inv_fetchRange (hs : s.Inv) (hpc : Config.memWords ≤ s.pc.toNat) : (s.raiseFault .fetchRange).Inv where
  memory := hs.memory
  latched := hs.latched
  cause := by simp
  pcRange := hs.pcRange
  ldptrRange := hs.ldptrRange
  loading := nofun
  halted := nofun
  faulted := fun _ => le_antisymm hs.pcRange hpc

/-- Fetch and decode (R104): IR, OPC and OPD are latched together. -/
theorem inv_latch (hs : s.Inv) (hp : s.phase = .run) (w : Word) : (s.latch w).Inv where
  memory := hs.memory
  latched := ⟨rfl, rfl⟩
  cause := hs.cause
  pcRange := hs.pcRange
  ldptrRange := hs.ldptrRange
  loading := fun h => by simp [hp] at h
  halted := fun h => by simp [hp] at h
  faulted := fun h => by simp [hp] at h

theorem inv_completes {i : Instr} (hs : s.Inv) (hp : s.phase = .run) (hpc : s.pc.toNat < Config.memWords)
    (h : Completes i s t) : t.Inv where
  memory := h.wf_mem hs.memory
  latched := by rw [h.opc_eq, h.opd_eq, h.ir_eq]; exact hs.latched
  cause := by rw [h.fcause_eq, h.phase_eq]; exact hs.cause
  pcRange := h.pc_le hpc
  ldptrRange := by rw [h.ldptr_eq]; exact hs.ldptrRange
  loading := fun ht => by simp [h.phase_eq, hp] at ht
  halted := fun ht => by simp [h.phase_eq, hp] at ht
  faulted := fun ht => by simp [h.phase_eq, hp] at ht

theorem inv_halts (hs : s.Inv) (hp : s.phase = .run) (hopc : s.opc = 15) (hstop : s.stoppedAtInstruction) :
    (s.setPhase .halted).Inv where
  memory := hs.memory
  latched := hs.latched
  cause := by simp [hs.cause, hp]
  pcRange := hs.pcRange
  ldptrRange := hs.ldptrRange
  loading := nofun
  halted := fun _ => ⟨hopc, hstop⟩
  faulted := nofun

theorem Raises.ne_none {i : Instr} {c : FCause} (h : Raises i s c) : c ≠ .none := by cases h <;> nofun

theorem inv_raises {i : Instr} {c : FCause} (hs : s.Inv) (h : Raises i s c) (he : (s.raiseFault c).faultEvidence) :
    (s.raiseFault c).Inv where
  memory := hs.memory
  latched := hs.latched
  cause := by simp [h.ne_none]
  pcRange := hs.pcRange
  ldptrRange := hs.ldptrRange
  loading := nofun
  halted := nofun
  faulted := fun _ => he

/-- An immediate form carries the flag bit in its field, so its operand is not zero. -/
theorem srcImm_ne_zero {f : OpField} (h : immFieldOk f = true) : srcImm f ≠ 0 := by
  intro h0
  have hbit : (srcImm f).getLsbD Config.flagBit = true := by
    simpa [srcImm, Config.immMask, Config.flagBit, immFieldOk] using h
  simp [h0] at hbit

/-- The latched instruction and the state show the cause it raises. -/
theorem faultEvidence_of_raises {w : Word} {c : FCause} (hstop : (s.latch w).stoppedAtInstruction)
    (h : Raises (decode w) (s.latch w) c) : ((s.latch w).raiseFault c).faultEvidence := by
  have hopc : opcodeField w = (decode w).opcode := (decode_opcode w).symm
  have hwf := decode_wellFormed w
  cases h with
  | overflow hi => exact ⟨hstop, by rwa [← hopc] at hi⟩
  | zeroWord f hi hz =>
    have hfield : operandField w = f ∧ memFieldOk f = true ∧ (opcodeField w = 8 ∨ opcodeField w = 9) := by
      rw [hopc]
      rcases hi with hi | hi <;> rw [hi] at hwf ⊢
      · exact ⟨operandField_of_decode hi rfl, hwf, .inl rfl⟩
      · exact ⟨operandField_of_decode hi rfl, hwf, .inr rfl⟩
    obtain ⟨rfl, hmode, h89⟩ := hfield
    exact ⟨hstop, h89, by simpa [memFieldOk] using hmode, hz⟩
  | zeroImm f hi hz =>
    have hmode : immFieldOk f = true := by rcases hi with hi | hi <;> rwa [hi] at hwf
    exact absurd hz (srcImm_ne_zero hmode)
  | exhausted f hi hin => exact ⟨hstop, by rw [State.raiseFault_opc, State.latch_opc, hopc, hi]; rfl, hin⟩

theorem inv_ends (hs : s.Inv) (hp : s.phase = .run) (hpc : s.pc.toNat < Config.memWords)
    (h : Ends (decode s.fetchWord) (s.latch s.fetchWord) t) : t.Inv := by
  have hl : (s.latch s.fetchWord).Inv := inv_latch hs hp _
  have hstop : (s.latch s.fetchWord).stoppedAtInstruction := ⟨hpc, rfl⟩
  rcases h with hc | ⟨hi, rfl⟩ | ⟨c, hr, rfl⟩
  · exact inv_completes hl hp hpc hc
  · exact inv_halts hl hp (by rw [State.latch_opc, ← decode_opcode, hi]; rfl) hstop
  · exact inv_raises hl hr (faultEvidence_of_raises hstop hr)

end

/-- Settles O48: each part of a step keeps `State.Inv`, the loader's three and the run step's four. -/
theorem stepKeepsTheInvariant : Obligations.StepKeepsTheInvariant := by
  intro s t hs h
  rcases step_ends h with ⟨hp, hl⟩ | ⟨hp, ⟨hpc, rfl⟩ | ⟨hpc, he⟩⟩
  · exact inv_loaderStep hs hp hl
  · exact inv_fetchRange hs hpc
  · exact inv_ends hs hp hpc he

/-- Settles O47: `State.reset` and every reset by the host are a `State.resetWith`. -/
theorem invariantHoldsAfterReset : Obligations.InvariantHoldsAfterReset :=
  ⟨inv_resetWith [], fun _ input => inv_resetWith input⟩

/-- Settles O7: the reset state is a literal, and an empty memory reads 0 at every index. -/
theorem resetGivesEveryPieceItsTableValue : Obligations.ResetGivesEveryPieceItsTableValue :=
  fun _ _ => ⟨rfl, rfl, rfl, rfl, rfl, fun i => Memory.read_nil i.toNat, rfl, rfl, rfl, rfl, rfl⟩

/-! ## What a step changes and what it leaves -/

/-- Settles O35: of all the ends of an instruction, only `Completes.setsAcc` touches ACC. -/
theorem onlyAccumulatorOpcodesChangeAcc : Obligations.OnlyAccumulatorOpcodesChangeAcc := by
  intro s t h hne
  rcases step_ends h with ⟨-, hl⟩ | ⟨hp, ⟨-, rfl⟩ | ⟨-, hc | ⟨-, rfl⟩ | ⟨c, -, rfl⟩⟩⟩
  · obtain ⟨hacc, -⟩ := loaderStep_keeps hl
    exact absurd hacc hne
  · exact absurd rfl hne
  · refine ⟨hp, hc.phase_eq.trans hp, ?_⟩
    by_contra hw
    exact hne (hc.acc_eq (hc.opc_decode ▸ hw))
  · exact absurd rfl hne
  · exact absurd rfl hne

theorem loaderStep_input {s t : State} (h : loaderStep s = .next t) :
    t.input = s.input ∨ ∃ w, s.input = w :: t.input := by
  rcases loaderStep_cases h with ⟨-, rfl⟩ | ⟨-, -, rfl⟩ | ⟨w, rest, hin, -, ⟨-, rfl⟩ | ⟨-, rfl⟩⟩
  · exact .inl rfl
  · exact .inl rfl
  · exact .inr ⟨w, hin⟩
  · exact .inr ⟨w, hin⟩

/-- Settles O36: IN is popped by the loader and by `Completes.reads`, OUT is extended by `Completes.writes`. -/
theorem inputShrinksAndOutputGrows : Obligations.InputShrinksAndOutputGrows := by
  intro s t h
  rcases step_ends h with ⟨hp, hl⟩ | ⟨hp, ⟨-, rfl⟩ | ⟨-, hc | ⟨-, rfl⟩ | ⟨c, -, rfl⟩⟩⟩
  · obtain ⟨-, -, -, -, hout⟩ := loaderStep_keeps hl
    exact ⟨(loaderStep_input hl).imp_right fun ⟨w, hw⟩ => ⟨w, hw, .inl hp⟩, .inl hout⟩
  · exact ⟨.inl rfl, .inl rfl⟩
  · refine ⟨hc.input_cases.imp_right fun ⟨hi, w, hw⟩ => ⟨w, hw, .inr ⟨hp, hc.opc_decode.trans hi⟩⟩,
      hc.output_cases.imp_right fun ⟨f, hi, hout⟩ => ⟨hp, ?_, ?_⟩⟩
    · rw [hc.opc_decode, hi]; rfl
    · have hopd : t.opd = f := by rw [hc.opd_decode (by rw [hi]; rfl), hi]; rfl
      rw [hopd]; exact hout
  · exact ⟨.inl rfl, .inl rfl⟩
  · exact ⟨.inl rfl, .inl rfl⟩

/-- How a completed instruction leaves PC, by the opcode and the operand field it latched. -/
theorem Completes.pc_by_opcode {s t : State} {w : Word} (hpc : s.pc.toNat < Config.memWords)
    (h : Completes (decode w) (s.latch w) t) :
    (t.opc.toNat ≤ 11 → t.pc.toNat = s.pc.toNat + 1) ∧
    (t.opc = 12 → t.pc.toNat = t.opd.toNat / 2) ∧
    (t.opc = 13 → t.pc.toNat = if s.acc.toInt < 0 then t.opd.toNat / 2 else s.pc.toNat + 1) ∧
    (t.opc = 14 → t.pc.toNat = if s.acc.toInt = 0 then t.opd.toNat / 2 else s.pc.toNat + 1) := by
  have hjump (hi : ignoresField t.opc = false) (hj : TakesJump (decode w) (s.latch w)) :
      t.pc.toNat = t.opd.toNat / 2 := by
    rw [h.pc_eq_target hj, target_toNat, h.opd_decode (h.opc_decode ▸ hi)]
  have hstay (hj : ¬ TakesJump (decode w) (s.latch w)) : t.pc.toNat = s.pc.toNat + 1 := by
    rw [h.pc_eq_succ hj]
    exact advanced_pc_toNat hpc
  have hiff : TakesJump (decode w) (s.latch w) ↔
      t.opc = 12 ∨ t.opc = 13 ∧ s.acc.toInt < 0 ∨ t.opc = 14 ∧ s.acc.toInt = 0 := by
    rw [h.opc_decode]; rfl
  refine ⟨fun ho => hstay fun hj => ?_, fun ho => ?_, fun ho => ?_, fun ho => ?_⟩
  · rcases hiff.1 hj with h12 | ⟨h13, -⟩ | ⟨h14, -⟩
    · simp [h12] at ho
    · simp [h13] at ho
    · simp [h14] at ho
  · exact hjump (by rw [ho]; rfl) (hiff.2 (.inl ho))
  · split
    · next hacc => exact hjump (by rw [ho]; rfl) (hiff.2 (.inr (.inl ⟨ho, hacc⟩)))
    · next hacc => exact hstay fun hj => by simp [hiff, ho, hacc] at hj
  · split
    · next hacc => exact hjump (by rw [ho]; rfl) (hiff.2 (.inr (.inr ⟨ho, hacc⟩)))
    · next hacc => exact hstay fun hj => by simp [hiff, ho, hacc] at hj

/-- A run step leaves PC alone and leaves RUN, or it completes the instruction fetched. -/
theorem run_stops_or_completes {s t : State} (hp : s.phase = .run) (h : step s = .next t) :
    (t.pc = s.pc ∧ t.phase ≠ .run) ∨
      (s.pc.toNat < Config.memWords ∧ Completes (decode s.fetchWord) (s.latch s.fetchWord) t) := by
  rcases step_ends h with ⟨hload, -⟩ | ⟨-, ⟨-, rfl⟩ | ⟨hpc, hc | ⟨-, rfl⟩ | ⟨c, -, rfl⟩⟩⟩
  · exact absurd (hp.symm.trans hload) nofun
  · exact .inl ⟨rfl, nofun⟩
  · exact .inr ⟨hpc, hc⟩
  · exact .inl ⟨rfl, nofun⟩
  · exact .inl ⟨rfl, nofun⟩

/-- Settles O37: a stop leaves PC alone; a completed instruction leaves it as its latched opcode says, and is no HALT. -/
theorem pcUpdateOfEveryInstruction : Obligations.PcUpdateOfEveryInstruction := by
  intro s t hp h
  refine ⟨step_of_past_memory hp, ?_⟩
  rcases run_stops_or_completes hp h with ⟨hpc, hstop⟩ | ⟨hpc, hc⟩
  · exact ⟨fun _ => hpc, fun _ => hpc, fun hr => absurd hr hstop, fun hr => absurd hr hstop,
      fun hr => absurd hr hstop, fun hr => absurd hr hstop, fun hle => hpc ▸ hle⟩
  · obtain ⟨hsucc, hjmp, hjneg, hjzero⟩ := hc.pc_by_opcode hpc
    exact ⟨fun hr => absurd (hc.phase_eq.trans hp) hr, fun h15 => absurd (hc.opc_decode ▸ h15) hc.opcode_ne_halt,
      fun _ => hsucc, fun _ => hjmp, fun _ => hjneg, fun _ => hjzero, fun _ => hc.pc_le hpc⟩

/-- Settles O38: a completed instruction stays in RUN, the other ends name the phase they enter. -/
theorem phaseMovesOnlyAsDrawn : Obligations.PhaseMovesOnlyAsDrawn := by
  refine ⟨rfl, rfl, rfl, rfl, fun s t h => ?_⟩
  rcases step_ends h with ⟨hp, hl⟩ | ⟨hp, ⟨-, rfl⟩ | ⟨-, hc | ⟨-, rfl⟩ | ⟨c, -, rfl⟩⟩⟩
  · refine .inl ⟨hp, ?_⟩
    rcases loaderStep_cases hl with ⟨-, rfl⟩ | ⟨-, -, rfl⟩ | ⟨w, rest, -, -, ⟨-, rfl⟩ | ⟨-, rfl⟩⟩
    · exact .inr (.inl rfl)
    · exact .inr (.inr rfl)
    · exact .inr (.inl rfl)
    · exact .inl hp
  · exact .inr ⟨hp, .inr (.inr rfl)⟩
  · exact .inr ⟨hp, .inl (hc.phase_eq.trans hp)⟩
  · exact .inr ⟨hp, .inr (.inl rfl)⟩
  · exact .inr ⟨hp, .inr (.inr rfl)⟩

/-- Settles O46: IR, OPC and OPD are written together by the latch (R104) and by nothing else. -/
theorem opcAndOpdAreThePartsOfIr : Obligations.OpcAndOpdAreThePartsOfIr := by
  refine ⟨fun _ _ => ⟨opcodeField_zero.symm, operandField_zero.symm⟩, fun s t hs h => ?_⟩
  rcases step_ends h with ⟨-, hl⟩ | ⟨-, ⟨-, rfl⟩ | ⟨-, he⟩⟩
  · obtain ⟨-, hir, hopc, hopd, -⟩ := loaderStep_keeps hl
    rwa [hir, hopc, hopd]
  · exact hs
  · obtain ⟨hir, hopc, hopd⟩ := he.latched_eq
    rw [hir, hopc, hopd]
    exact ⟨rfl, rfl⟩

/-! ## What the host may read -/

theorem observe_of_runOver {s : State} (h : s.runOver) :
    s.observe = some ⟨s.acc, s.pc, s.ir, s.opc, s.opd, s.mem⟩ := by
  rcases h with h | h <;> simp [State.observe, h]

theorem observe_of_not_runOver {s : State} (h : ¬ s.runOver) : s.observe = none := by
  unfold State.observe
  split
  · rfl
  · rfl
  · next hp => exact absurd (.inl hp) h
  · next hp => exact absurd (.inr hp) h

theorem observe_eq_some_iff {s : State} {o : Observation} :
    s.observe = some o ↔ s.runOver ∧ o = ⟨s.acc, s.pc, s.ir, s.opc, s.opd, s.mem⟩ := by
  by_cases h : s.runOver
  · rw [observe_of_runOver h, Option.some_inj]
    exact ⟨fun e => ⟨h, e.symm⟩, fun e => e.2.symm⟩
  · rw [observe_of_not_runOver h]
    exact ⟨nofun, fun e => absurd e.1 h⟩

theorem readFinal_eq_some_iff {s : State} {v : FinalState} :
    s.readFinal = some v ↔ s.observe = some v.observation ∧ v.status = s.status ∧ v.ldptr = s.ldptr := by
  rw [State.readFinal, Option.map_eq_some_iff]
  constructor
  · rintro ⟨o, ho, rfl⟩
    exact ⟨ho, rfl, rfl⟩
  · rintro ⟨ho, hs, hl⟩
    exact ⟨v.observation, ho, by rw [← hs, ← hl]⟩

/-- Settles O49: both readings are open exactly when the run is over, and show the state. -/
theorem hostReadsStateOnlyAfterTheStop : Obligations.HostReadsStateOnlyAfterTheStop := by
  intro s
  have hopen : (∃ o, s.observe = some o) ↔ s.runOver :=
    ⟨fun ⟨_, ho⟩ => (observe_eq_some_iff.1 ho).1, fun h => ⟨_, observe_of_runOver h⟩⟩
  have hfinal : (∃ v, s.readFinal = some v) ↔ ∃ o, s.observe = some o :=
    ⟨fun ⟨v, hv⟩ => ⟨v.observation, (readFinal_eq_some_iff.1 hv).1⟩,
      fun ⟨o, ho⟩ => ⟨⟨o, s.status, s.ldptr⟩, readFinal_eq_some_iff.2 ⟨ho, rfl, rfl⟩⟩⟩
  refine ⟨hopen, hfinal.trans hopen, fun o ho => ?_, fun v => readFinal_eq_some_iff.1, rfl, rfl, rfl⟩
  obtain ⟨-, rfl⟩ := observe_eq_some_iff.1 ho
  exact ⟨rfl, rfl, rfl, rfl, rfl, fun _ => rfl⟩

/-! ## Canonical memories (log entry 2) -/

theorem Memory.wf_cons_iff {c : Nat × Word} {m : Memory} :
    Memory.wf (c :: m) ↔ (∀ d ∈ m, c.1 < d.1) ∧ c.1 < Config.memWords ∧ c.2 ≠ 0 ∧ Memory.wf m := by
  simp only [Memory.wf, List.pairwise_cons, List.forall_mem_cons, Memory.unlisted]
  tauto

/-- An index below every listed one reads 0. -/
theorem Memory.read_eq_zero_of_lt {m : Memory} {a : Nat} (h : ∀ c ∈ m, a < c.1) : Memory.read m a = 0 := by
  induction m with
  | nil => rfl
  | cons c m ih =>
    rw [List.forall_mem_cons] at h
    rw [Memory.read_cons, if_neg h.1.ne', ih h.2]

theorem Memory.read_head (c : Nat × Word) (m : Memory) : Memory.read (c :: m) c.1 = c.2 := by
  rw [Memory.read_cons, if_pos rfl]

/-- The first listed index of a canonical memory is the lowest that reads other than 0, so it cannot lie below the first of a
memory that reads alike. -/
theorem Memory.head_not_lt {c d : Nat × Word} {m n : Memory} (hm : Memory.wf (c :: m)) (hn : Memory.wf (d :: n))
    (h : ∀ a, a < Config.memWords → Memory.read (c :: m) a = Memory.read (d :: n) a) : ¬ c.1 < d.1 := by
  intro hlt
  obtain ⟨-, hc, hv, -⟩ := Memory.wf_cons_iff.1 hm
  obtain ⟨hd, -⟩ := Memory.wf_cons_iff.1 hn
  have hzero : Memory.read (d :: n) c.1 = 0 :=
    Memory.read_eq_zero_of_lt (List.forall_mem_cons.2 ⟨hlt, fun e he => hlt.trans (hd e he)⟩)
  exact hv (by rw [← Memory.read_head c m, h _ hc, hzero])

/-- A canonical memory with a listed word does not read 0 everywhere. -/
theorem Memory.not_reads_zero {c : Nat × Word} {m : Memory} (hm : Memory.wf (c :: m)) :
    ¬ ∀ a, a < Config.memWords → Memory.read (c :: m) a = 0 := by
  intro h
  obtain ⟨-, hc, hv, -⟩ := Memory.wf_cons_iff.1 hm
  exact hv (by rw [← Memory.read_head c m, h _ hc])

theorem Memory.tail_reads {c d : Nat × Word} {m n : Memory} (hm : ∀ e ∈ m, c.1 < e.1) (hn : ∀ e ∈ n, c.1 < e.1)
    (hcd : c.1 = d.1) {a : Nat} (h : Memory.read (c :: m) a = Memory.read (d :: n) a) :
    Memory.read m a = Memory.read n a := by
  by_cases ha : c.1 = a
  · subst ha
    rw [Memory.read_eq_zero_of_lt hm, Memory.read_eq_zero_of_lt hn]
  · rwa [Memory.read_cons, Memory.read_cons, if_neg ha, if_neg (hcd ▸ ha)] at h

/-- Settles O44, by induction on both lists: the heads agree, and then the tails read alike. -/
theorem canonicalMemoriesAreEqualWhenTheyReadAlike : Obligations.CanonicalMemoriesAreEqualWhenTheyReadAlike := by
  intro m
  induction m with
  | nil =>
    intro n _ hn h
    cases n with
    | nil => rfl
    | cons d n => exact absurd (fun a ha => (h a ha).symm) (Memory.not_reads_zero hn)
  | cons c m ih =>
    intro n hm hn h
    cases n with
    | nil => exact absurd h (Memory.not_reads_zero hm)
    | cons d n =>
      have hidx : c.1 = d.1 :=
        le_antisymm (not_lt.1 (Memory.head_not_lt hn hm fun a ha => (h a ha).symm)) (not_lt.1 (Memory.head_not_lt hm hn h))
      obtain ⟨hcm, hc, -, hwm⟩ := Memory.wf_cons_iff.1 hm
      obtain ⟨hdn, -, -, hwn⟩ := Memory.wf_cons_iff.1 hn
      have hval : c.2 = d.2 := by
        rw [← Memory.read_head c m, h _ hc, hidx, Memory.read_head]
      have htail : m = n := ih n hwm hwn fun a ha => Memory.tail_reads hcm (hidx ▸ hdn) hidx (h a ha)
      rw [Prod.ext hidx hval, htail]

/-! ## OUT, LDPTR and FCAUSE are unobservable (10_state.md R30) -/

/-- The state with other contents of OUT, LDPTR and FCAUSE. -/
def withHidden (o : List Word) (l : PcWord) (c : FCause) (s : State) : State :=
  { s with output := o, ldptr := l, fcause := c }

/-- Where the first answer, from `s`, is a next state, the second, from `withHidden o l c s`, is the same but for OUT, LDPTR
and FCAUSE, and both append the same to OUT. -/
def AgreesUpToHidden (o : List Word) (l : PcWord) (c : FCause) (s : State) (r r' : Result) : Prop :=
  ∀ t, r = .next t → ∃ v, t.output = s.output ++ v ∧
    r' = .next (withHidden (o ++ v) l (if t.phase = .fault then t.fcause else c) t)

section
variable {o : List Word} {l : PcWord} {c : FCause} {s : State}

theorem agrees_of_proceeds (u : State) (v : List Word) (hv : u.output = s.output ++ v) (hp : u.phase ≠ .fault) :
    AgreesUpToHidden o l c s (.next u) (.next (withHidden (o ++ v) l c u)) := by
  rintro t ⟨⟩
  exact ⟨v, hv, by rw [if_neg hp]⟩

/-- As `agrees_of_proceeds`, where nothing is written out. -/
theorem agrees_of_silent (u : State) (hv : u.output = s.output) (hp : u.phase ≠ .fault) :
    AgreesUpToHidden o l c s (.next u) (.next (withHidden o l c u)) := by
  simpa using agrees_of_proceeds (o := o) (l := l) (c := c) (s := s) u [] (by simpa using hv) hp

theorem agrees_of_raiseFault (k : FCause) :
    AgreesUpToHidden o l c s (.next (s.raiseFault k)) (.next ((withHidden o l c s).raiseFault k)) := by
  rintro t ⟨⟩
  exact ⟨[], by simp, by simp [withHidden, State.raiseFault]⟩

theorem agrees_ite {b : Prop} [Decidable b] {r₁ r₁' r₂ r₂' : Result} (h₁ : AgreesUpToHidden o l c s r₁ r₁')
    (h₂ : AgreesUpToHidden o l c s r₂ r₂') :
    AgreesUpToHidden o l c s (if b then r₁ else r₂) (if b then r₁' else r₂') := by
  split <;> assumption

theorem agrees_finishChecked (hp : s.phase ≠ .fault) (r : Int) :
    AgreesUpToHidden o l c s (finishChecked r s) (finishChecked r (withHidden o l c s)) :=
  agrees_ite (agrees_of_silent _ rfl hp) (agrees_of_raiseFault _)

theorem agrees_finishDivision (hp : s.phase ≠ .fault) (src : Word) (r : Int) :
    AgreesUpToHidden o l c s (finishDivision src r s) (finishDivision src r (withHidden o l c s)) :=
  agrees_ite (agrees_of_raiseFault _) (agrees_of_silent _ rfl hp)

theorem agrees_jumpIf (hp : s.phase ≠ .fault) (b : Bool) (f : OpField) :
    AgreesUpToHidden o l c s (jumpIf b f s) (jumpIf b f (withHidden o l c s)) :=
  agrees_ite (agrees_of_silent _ rfl hp) (agrees_of_silent _ rfl hp)

theorem agrees_execRead (hp : s.phase ≠ .fault) (f : OpField) :
    AgreesUpToHidden o l c s (execRead f s) (execRead f (withHidden o l c s)) := by
  cases hin : s.input with
  | nil =>
    have hin' : (withHidden o l c s).input = [] := hin
    simp only [execRead, State.inPop?, hin, hin']
    exact agrees_of_raiseFault _
  | cons w rest =>
    have hin' : (withHidden o l c s).input = w :: rest := hin
    simp only [execRead, State.inPop?, hin, hin']
    exact agrees_of_silent _ rfl hp

/-- No instruction reads OUT, LDPTR or FCAUSE. -/
theorem agrees_exec (hp : s.phase ≠ .fault) (i : Instr) :
    AgreesUpToHidden o l c s (exec i s) (exec i (withHidden o l c s)) := by
  cases i with
  | addMem f | addImm f | subMem f | subImm f | mulMem f | mulImm f | neg => exact agrees_finishChecked hp _
  | divMem f | divImm f | modMem f | modImm f => exact agrees_finishDivision hp _ _
  | jneg f | jzero f => exact agrees_jumpIf hp _ f
  | read f => exact agrees_execRead hp f
  | write f => exact agrees_of_proceeds _ _ rfl hp
  | loadMem f | loadImm f | store f | jmp f | endOp | nop => exact agrees_of_silent _ rfl hp
  | halt => exact agrees_of_silent _ rfl nofun

theorem agrees_runStep (hp : s.phase ≠ .fault) :
    AgreesUpToHidden o l c s (runStep s) (runStep (withHidden o l c s)) :=
  agrees_ite (agrees_exec (s := s.latch s.fetchWord) hp _) (agrees_of_raiseFault _)

end

/-- Settles O41: the run step agrees up to the hidden registers, instruction by instruction. -/
theorem outputLdptrAndCauseAreUnobservable : Obligations.OutputLdptrAndCauseAreUnobservable := by
  intro s t o l c hp h
  rw [step_of_run hp] at h
  rw [step_of_run (s := { s with output := o, ldptr := l, fcause := c }) hp]
  exact agrees_runStep (by simp [hp]) t h

end Sys2Proof.Proofs

/-! PROOFS of the family 20_memory.md: what an operand field stands for, and the form of the memory. -/

namespace Sys2Proof.Proofs

open Sys2Proof.Machine

/-! ## The memory's canonical form is kept (log entry 2) -/

section
variable {i : Instr} {s t : State}

/-- The loader writes at most one word, and at an index of the memory. -/
theorem wf_mem_of_loaderStep (hm : Memory.wf s.mem) (h : loaderStep s = .next t) : Memory.wf t.mem := by
  rcases loaderStep_cases h with ⟨-, rfl⟩ | ⟨-, -, rfl⟩ | ⟨w, rest, -, -, ⟨-, rfl⟩ | ⟨-, rfl⟩⟩
  · exact hm
  · exact hm
  · exact State.wf_memWrite (s := s.setInput rest) s.ldIndex w hm
  · exact State.wf_memWrite (s := s.setInput rest) s.ldIndex w hm

/-- HALT and a fault stop leave the memory alone; a completed instruction writes it by `MemWrite` alone. -/
theorem Ends.wf_mem (h : Ends i s t) (hm : Memory.wf s.mem) : Memory.wf t.mem := by
  rcases h with hc | ⟨-, rfl⟩ | ⟨c, -, rfl⟩
  · exact hc.wf_mem hm
  · exact hm
  · exact hm

end

/-- Settles O45: the loader, the stop past the memory and every end of an instruction keep the form. -/
theorem stepKeepsMemoryCanonical : Obligations.StepKeepsMemoryCanonical := by
  intro s t hm h
  rcases step_ends h with ⟨-, hl⟩ | ⟨-, ⟨-, rfl⟩ | ⟨-, he⟩⟩
  · exact wf_mem_of_loaderStep hm hl
  · exact hm
  · exact he.wf_mem hm

/-! ## Bit 0 of a byte address (20_memory.md R36) -/

section
variable (f : OpField) (s : State)

/-- Halving drops bit 0, whatever it was. -/
theorem shiftRight_one_or_one : (f ||| 1) >>> 1 = f >>> 1 := by
  have hone : (1 : OpField) >>> 1 = 0#12 := by decide
  rw [BitVec.ushiftRight_or_distrib, hone, BitVec.or_zero]

theorem widx_or_one : widx (f ||| 1) = widx f := by
  rw [widx, shiftRight_one_or_one, ← widx]

theorem target_or_one : target (f ||| 1) = target f := shiftRight_one_or_one f

theorem srcMem_or_one : srcMem s (f ||| 1) = srcMem s f := by
  rw [srcMem, widx_or_one, ← srcMem]

theorem execStore_or_one : execStore (f ||| 1) s = execStore f s := by
  rw [execStore, widx_or_one, ← execStore]

theorem execRead_or_one : execRead (f ||| 1) s = execRead f s := by
  unfold execRead
  rw [widx_or_one]

theorem execWrite_or_one : execWrite (f ||| 1) s = execWrite f s := by
  rw [execWrite, widx_or_one, ← execWrite]

theorem execJmp_or_one : execJmp (f ||| 1) s = execJmp f s := by
  rw [execJmp, target_or_one, ← execJmp]

theorem jumpIf_or_one (c : Bool) : jumpIf c (f ||| 1) s = jumpIf c f s := by
  rw [jumpIf, target_or_one, ← jumpIf]

end

/-- Settles O43: LOAD and the arithmetic take their field by `srcMem`, STORE, READ and WRITE by `widx`, the jumps by `target`,
and each of these halves it. -/
theorem oddFieldActsAsTheEvenOneBelow : Obligations.OddFieldActsAsTheEvenOneBelow := by
  intro f s
  have hsrc : srcMem s (f ||| 1) = srcMem s f := srcMem_or_one f s
  exact ⟨congrArg (loadAcc · s) hsrc, execStore_or_one f s, execRead_or_one f s, execWrite_or_one f s,
    congrArg (addSrc · s) hsrc, congrArg (subSrc · s) hsrc, congrArg (mulSrc · s) hsrc, congrArg (divSrc · s) hsrc,
    congrArg (modSrc · s) hsrc, execJmp_or_one f s, jumpIf_or_one f s _, jumpIf_or_one f s _⟩

/-! ## The values of an operand field (20_memory.md R33, R34; 30_encoding.md R52) -/

theorem widx_toNat (f : OpField) : (widx f).toNat = f.toNat / 2 := by
  have hf := f.isLt
  rw [widx, BitVec.toNat_setWidth, BitVec.toNat_ushiftRight, Nat.shiftRight_eq_div_pow]
  exact Nat.mod_eq_of_lt (by omega)

/-- `IMM_MASK` covers the whole field, flag bit included (90_conflicts.md C1). -/
theorem srcImm_toNat (f : OpField) : (srcImm f).toNat = f.toNat := by
  have hmask : Config.immMask.toNat = 2 ^ 12 - 1 := rfl
  rw [srcImm, BitVec.toNat_and, hmask, Nat.and_two_pow_sub_one_eq_mod, BitVec.toNat_setWidth_of_le (by decide)]
  exact Nat.mod_eq_of_lt f.isLt

/-- The flag bit is the top bit of the field. -/
theorem flagBit_iff_le_toNat (f : OpField) : f.getLsbD 11 = true ↔ 2048 ≤ f.toNat := by
  rw [BitVec.getLsbD_last f, decide_eq_true_iff]

/-- Settles O5: the values by `widx_toNat`, `target_toNat` and `srcImm_toNat`, the ranges by the weight of the flag bit. -/
theorem operandFormsOfAField : Obligations.OperandFormsOfAField := by
  intro f
  have hf := f.isLt
  refine ⟨widx_toNat f, target_toNat f, srcImm_toNat f, fun hclear => ?_, fun hset => ?_⟩
  · have hlt : ¬ 2048 ≤ f.toNat := by rw [← flagBit_iff_le_toNat, hclear]; decide
    rw [widx_toNat]
    omega
  · have hle : 2048 ≤ f.toNat := (flagBit_iff_le_toNat f).1 hset
    rw [srcImm_toNat]
    omega

end Sys2Proof.Proofs

/-! PROOFS of the family 30_encoding.md: a word is its opcode and its operand field, an instruction is fixed by its opcode, its
form and its operand field, and the frame of the execute stage. -/

namespace Sys2Proof.Proofs

open Sys2Proof.Machine

/-! ## A word is its opcode and its operand field (R49 to R51, R60) -/

section
variable (opc : OpCode) (f : OpField) (w : Word)

theorem wordOf_eq_append : wordOf opc f = opc ++ f := by
  rw [BitVec.append_def, BitVec.shiftLeftZeroExtend_eq, BitVec.setWidth'_eq]
  rfl

@[simp] theorem opcodeField_wordOf : opcodeField (wordOf opc f) = opc := by
  rw [wordOf_eq_append]
  exact BitVec.extractLsb'_append_eq_left

@[simp] theorem operandField_wordOf : operandField (wordOf opc f) = f := by
  rw [wordOf_eq_append]
  exact BitVec.extractLsb'_append_eq_right

theorem wordOf_opcodeField_operandField : wordOf (opcodeField w) (operandField w) = w := by
  rw [wordOf_eq_append, opcodeField, operandField, BitVec.extractLsb'_append_extractLsb'_eq_extractLsb' (by decide)]
  exact BitVec.extractLsb'_eq_self

theorem wordOf_inj {opc opc' : OpCode} {f f' : OpField} : wordOf opc f = wordOf opc' f' ↔ opc = opc' ∧ f = f' := by
  refine ⟨fun h => ⟨?_, ?_⟩, fun ⟨ho, hf⟩ => by rw [ho, hf]⟩
  · simpa using congrArg opcodeField h
  · simpa using congrArg operandField h

/-- The mask of a row with one form keeps the opcode alone. -/
theorem and_opcodeMask : w &&& 0xF000 = wordOf (opcodeField w) 0 := by
  conv_lhs => rw [← wordOf_opcodeField_operandField w]
  exact Laws.wordOf_and_opcode _ _

/-- The mask of a row with two forms keeps the opcode and the mode flag. -/
theorem and_modeMask : w &&& 0xF800 = wordOf (opcodeField w) (if modeFlag w then 0x800 else 0) := by
  conv_lhs => rw [← wordOf_opcodeField_operandField w]
  rw [Laws.wordOf_and_mode, ← operandField_flagBit]

end

/-! ## What fixes an instruction: its opcode, its form and its operand field (R51, R53, R59) -/

/-- The mode flag of a form's row: `some false` for a memory form, `some true` for an immediate form, `none` for the opcodes
that do not look at the flag (R51). -/
def formFlag : Instr → Option Bool
  | .loadMem _ | .addMem _ | .subMem _ | .mulMem _ | .divMem _ | .modMem _ => some false
  | .loadImm _ | .addImm _ | .subImm _ | .mulImm _ | .divImm _ | .modImm _ => some true
  | _ => none

/-- The six opcodes with a memory form and an immediate form: 1 and 5 to 9 (R51). -/
def hasTwoForms (opc : OpCode) : Bool := opc == 1 || opc == 5 || opc == 6 || opc == 7 || opc == 8 || opc == 9

/-- The bits of the row's mask: the opcode, and the mode flag where the opcode has two forms. -/
def maskOfForm : Option Bool → Word
  | none => 0xF000
  | some _ => 0xF800

/-- The operand bits of the row's match: the mode flag alone. -/
def fieldOfForm : Option Bool → OpField
  | none => 0
  | some false => 0
  | some true => 0x800

section
variable {i j : Instr} {w : Word}

theorem isSome_formFlag (i : Instr) : (formFlag i).isSome = hasTwoForms i.opcode := by cases i <;> rfl

theorem rowMask_eq (i : Instr) : i.rowMask = maskOfForm (formFlag i) := by cases i <;> rfl

theorem rowMatch_eq (i : Instr) : i.rowMatch = wordOf i.opcode (fieldOfForm (formFlag i)) := by
  cases i <;> simp only [Instr.rowMatch, Instr.opcode, formFlag, fieldOfForm] <;> decide

theorem field_eq_zero_of_ignoresField (h : ignoresField i.opcode = true) : i.field = 0 := by
  revert h
  cases i <;> simp [ignoresField, Instr.opcode, Instr.field]

theorem ignoresField_of_formFlag {m : Bool} (h : formFlag i = some m) : ignoresField i.opcode = false := by
  revert h
  cases i <;> simp [formFlag, ignoresField, Instr.opcode]

/-- Well-formed is: the flag bit of the field is the one of the form (R59). -/
theorem wellFormed_iff_formFlag :
    i.wellFormed = true ↔ ∀ m, formFlag i = some m → i.field.getLsbD Config.flagBit = m := by
  cases i <;> simp [Instr.wellFormed, formFlag, Instr.field, memFieldOk, immFieldOk]

theorem Fits.modeFlag_eq (h : Fits w i) {m : Bool} (hm : formFlag i = some m) : modeFlag w = m := by
  rw [← operandField_flagBit, ← h.field (ignoresField_of_formFlag hm)]
  exact wellFormed_iff_formFlag.1 h.wellFormed m hm

/-- The decoder finds the one instruction that has the word's opcode, mode and field. -/
theorem Fits.decode_eq (h : Fits w i) : decode w = i := by
  have hopc := h.opcode
  have hfield := h.field
  have hmode := fun m => h.modeFlag_eq (m := m)
  unfold decode
  rw [← hopc]
  cases i with
  | endOp | neg | nop | halt => rfl
  | store f | read f | write f | jmp f | jneg f | jzero f => rw [← hfield rfl]; rfl
  | loadMem f | addMem f | subMem f | mulMem f | divMem f | modMem f => rw [← hfield rfl, hmode false rfl]; rfl
  | loadImm f | addImm f | subImm f | mulImm f | divImm f | modImm f => rw [← hfield rfl, hmode true rfl]; rfl

theorem encode_fits (h : i.wellFormed = true) : Fits (encode i) i where
  opcode := (opcodeField_wordOf _ _).symm
  wellFormed := h
  field _ := (operandField_wordOf _ _).symm

end

/-- Settles O2: the word of an instruction has its opcode, mode and field, and `decode` finds the one that has them. -/
theorem decodeReadsBackEveryEncodedInstruction : Obligations.DecodeReadsBackEveryEncodedInstruction :=
  fun _ h => (encode_fits h).decode_eq

/-! ## From the word to the instruction and back (R54, R55) -/

section
variable (w : Word)

theorem canonicalWord_of_ignoresField (h : ignoresField (opcodeField w) = true) :
    Claims.canonicalWord w = w &&& 0xF000 :=
  if_pos (by simpa [ignoresField, or_assoc] using h)

theorem canonicalWord_of_not_ignoresField (h : ignoresField (opcodeField w) = false) : Claims.canonicalWord w = w :=
  if_neg (by simpa [ignoresField, and_assoc] using h)

theorem encode_decode : encode (decode w) = Claims.canonicalWord w := by
  have hopc := decode_opcode w
  cases hi : ignoresField (opcodeField w) with
  | true =>
    rw [encode, field_eq_zero_of_ignoresField (by rwa [hopc]), hopc, canonicalWord_of_ignoresField w hi, and_opcodeMask]
  | false =>
    rw [encode, (decode_fits w).field (by rwa [hopc]), hopc, canonicalWord_of_not_ignoresField w hi]
    exact wordOf_opcodeField_operandField w

end

/-- Settles O3: the field is the word's own, or 0 where the opcode ignores it. -/
theorem encodeReadsBackEveryWord : Obligations.EncodeReadsBackEveryWord :=
  fun w => ⟨decode_wellFormed w, encode_decode w⟩

/-! ## The rows of the opcode map (R53) -/

section
variable {i j : Instr} {w : Word}

/-- A word fits a row where it has the row's opcode and, where the row looks at it, the row's mode flag. -/
theorem fitsRow_iff : w &&& i.rowMask = i.rowMatch ↔
    i.opcode = opcodeField w ∧ ∀ m, formFlag i = some m → modeFlag w = m := by
  rw [rowMask_eq, rowMatch_eq]
  cases formFlag i with
  | none =>
    rw [maskOfForm, fieldOfForm, and_opcodeMask, wordOf_inj]
    simp [eq_comm]
  | some m =>
    rw [maskOfForm, and_modeMask, wordOf_inj]
    cases m <;> cases modeFlag w <;> simp [fieldOfForm, eq_comm]

theorem Fits.fitsRow (h : Fits w i) : w &&& i.rowMask = i.rowMatch :=
  fitsRow_iff.2 ⟨h.opcode, fun _ => h.modeFlag_eq⟩

/-- Two rows that one word fits are of the same form: the opcode says whether there are two, the word's flag which it is. -/
theorem formFlag_eq_of_fitsRow (hi : w &&& i.rowMask = i.rowMatch) (hj : w &&& j.rowMask = j.rowMatch) :
    formFlag j = formFlag i := by
  obtain ⟨hiopc, himode⟩ := fitsRow_iff.1 hi
  obtain ⟨hjopc, hjmode⟩ := fitsRow_iff.1 hj
  have hforms : (formFlag j).isSome = (formFlag i).isSome := by
    rw [isSome_formFlag, isSome_formFlag, hiopc, hjopc]
  cases hfi : formFlag i with
  | none => simpa [hfi] using hforms
  | some m =>
    obtain ⟨n, hfj⟩ := Option.isSome_iff_exists.1 (hforms.trans (by rw [hfi]; rfl))
    rw [hfj, ← hjmode n hfj, himode m hfi]

theorem row_unique (hi : w &&& i.rowMask = i.rowMatch) (hj : w &&& j.rowMask = j.rowMatch) :
    j.rowMask = i.rowMask ∧ j.rowMatch = i.rowMatch := by
  have hform := formFlag_eq_of_fitsRow hi hj
  have hopc : j.opcode = i.opcode := (fitsRow_iff.1 hj).1.trans (fitsRow_iff.1 hi).1.symm
  exact ⟨by rw [rowMask_eq, rowMask_eq, hform], by rw [rowMatch_eq, rowMatch_eq, hform, hopc]⟩

end

/-- Settles O4: the decoded instruction's row fits, and a row is fixed by any word that fits it. -/
theorem everyWordFitsExactlyOneRow : Obligations.EveryWordFitsExactlyOneRow := by
  intro w
  have hrow := (decode_fits w).fitsRow
  exact ⟨hrow, fun _ hj => row_unique hrow hj⟩

/-- Settles O1: nine fixed words, by evaluation of `decode`. -/
theorem sampleWordsDecodeAsTheMapSays : Obligations.SampleWordsDecodeAsTheMapSays := by
  unfold Obligations.SampleWordsDecodeAsTheMapSays
  decide

/-! ## The frame of the execute stage (R57) -/

section
variable {i : Instr} {s t : State}

theorem Completes.memRead_eq (h : Completes i s t) {a : WIdx} (ha : Claims.storeTarget i ≠ some a) :
    t.memRead a = s.memRead a := by
  cases h with
  | stores f hi | reads f _ _ hi =>
    subst hi
    exact State.memRead_memWrite_of_ne _ _ fun e => ha (congrArg some e.symm)
  | _ => rfl

theorem Ends.memRead_eq (h : Ends i s t) {a : WIdx} (ha : Claims.storeTarget i ≠ some a) :
    t.memRead a = s.memRead a := by
  rcases h with hc | ⟨-, rfl⟩ | ⟨c, -, rfl⟩
  · exact hc.memRead_eq ha
  · rfl
  · rfl

theorem Completes.input_eq (h : Completes i s t) (hi : i.opcode ≠ 3) : t.input = s.input :=
  h.input_cases.resolve_right fun ⟨h3, _⟩ => hi h3

theorem Completes.output_eq (h : Completes i s t) (hi : i.opcode ≠ 4) : t.output = s.output :=
  h.output_cases.resolve_right fun ⟨_, hw, _⟩ => hi (by rw [hw]; rfl)

end

/-- Settles O33: of all the ends of an instruction only STORE's and READ's write memory, at the index of their field. -/
theorem execLeavesOtherMemoryWords : Obligations.ExecLeavesOtherMemoryWords :=
  fun _ _ _ h _ ha => (exec_ends h).memRead_eq ha

/-- Settles O34: each update of `Completes` names what it writes; HALT writes PHASE, a fault stop PHASE and FCAUSE. -/
theorem execLeavesOtherRegisters : Obligations.ExecLeavesOtherRegisters := by
  intro i s t h
  rcases exec_ends h with hc | ⟨rfl, rfl⟩ | ⟨c, -, rfl⟩
  · exact ⟨hc.ir_eq, hc.opc_eq, hc.opd_eq, hc.ldptr_eq, hc.acc_eq, hc.input_eq, hc.output_eq, .inl hc.fcause_eq,
      fun _ => .inl hc.phase_eq⟩
  · exact ⟨rfl, rfl, rfl, rfl, fun _ => rfl, fun _ => rfl, fun _ => rfl, .inl rfl, fun hne => absurd rfl hne⟩
  · exact ⟨rfl, rfl, rfl, rfl, fun _ => rfl, fun _ => rfl, fun _ => rfl, .inr rfl, fun _ => .inr rfl⟩

end Sys2Proof.Proofs

/-! PROOFS of the family 40_load_store.md: the words of a row, the widening and narrowing between a word and ACC, LOAD and
STORE. -/

namespace Sys2Proof.Proofs

open Sys2Proof.Machine

/-! ## A word of a row decodes to the row's instruction with the word's field (30_encoding.md R53 to R55) -/

section
variable {i : Instr} {w : Word}

/-- A word that fits the row of an instruction and carries its operand field decodes to it. -/
theorem decode_of_fitsRow (hrow : w &&& i.rowMask = i.rowMatch)
    (hfield : ignoresField i.opcode = false → i.field = operandField w) : decode w = i := by
  obtain ⟨hopc, hmode⟩ := fitsRow_iff.1 hrow
  have hwf : i.wellFormed = true := wellFormed_iff_formFlag.2 fun m hm => by
    rw [hfield (ignoresField_of_formFlag hm), operandField_flagBit]
    exact hmode m hm
  exact Fits.decode_eq ⟨hopc, hwf, hfield⟩

end

/-! ## Between a word and the accumulator (00_scope.md R8) -/

/-- A word is unsigned in ACC: its top bit is no sign (20_memory.md R37). -/
theorem zext32_toInt (v : Word) : (zext32 v).toInt = v.toNat := by
  have hv := v.isLt
  rw [zext32, BitVec.toInt_setWidth]
  exact Int.bmod_eq_of_le (by omega) (by omega)

/-- The low 16 bits of ACC, of either sign, are its residue modulo 2^16. -/
theorem trunc16_toNat (v : Acc) : ((trunc16 v).toNat : Int) = v.toInt % 65536 := by
  have hv := v.isLt
  rw [trunc16, BitVec.toNat_setWidth, BitVec.toInt_eq_toNat_cond]
  split <;> omega

theorem zext32_trunc16_toInt (v : Acc) : (zext32 (trunc16 v)).toInt = v.toInt % 65536 := by
  rw [zext32_toInt, trunc16_toNat]

/-- Exactly the values of a word survive the narrowing (40_load_store.md R62(b)). -/
theorem zext32_trunc16_eq_self_iff (v : Acc) : zext32 (trunc16 v) = v ↔ 0 ≤ v.toInt ∧ v.toInt ≤ 65535 := by
  rw [← BitVec.toInt_inj, zext32_trunc16_toInt]
  omega

/-! ## LOAD and STORE -/

section
variable (f : OpField) (s : State)

theorem exec_loadMem : exec (.loadMem f) s = .next (s.setAcc (zext32 (s.memRead (widx f)))).advancePc := rfl

theorem exec_loadImm : exec (.loadImm f) s = .next (s.setAcc (zext32 (srcImm f))).advancePc := rfl

theorem exec_store : exec (.store f) s = .next (s.memWrite (widx f) (trunc16 s.acc)).advancePc := rfl

/-- An instruction that sets ACC and advances has the result `r` where the new ACC has. -/
theorem accBecomes_of_setAcc {o : Result} {v : Acc} {r : Int} (ho : o = .next (s.setAcc v).advancePc) (hv : v.toInt = r) :
    Claims.AccBecomes o s r :=
  ⟨_, ho, hv, rfl⟩

theorem accBecomes_loadMem : Claims.AccBecomes (exec (.loadMem f) s) s (s.memRead (widx f)).toNat :=
  accBecomes_of_setAcc s (exec_loadMem f s) (zext32_toInt _)

theorem accBecomes_loadImm : Claims.AccBecomes (exec (.loadImm f) s) s f.toNat :=
  accBecomes_of_setAcc s (exec_loadImm f s) (by rw [zext32_toInt, srcImm_toNat])

end

/-- Settles O15: the words by the two rows of LOAD, the values by the zero extension of the memory word and of the field. -/
theorem loadResult : Obligations.LoadResult :=
  ⟨fun w hw => decode_of_fitsRow (i := .loadMem (operandField w)) hw fun _ => rfl,
    fun w hw => decode_of_fitsRow (i := .loadImm (operandField w)) hw fun _ => rfl,
    fun f s => ⟨fun _ => accBecomes_loadMem f s, fun _ => accBecomes_loadImm f s⟩⟩

/-- Settles O16: the words by the row of STORE, the memory by what a read gives after a write at the same and at another
index. -/
theorem storeResult : Obligations.StoreResult := by
  refine ⟨fun w hw => decode_of_fitsRow (i := .store (operandField w)) hw fun _ => rfl,
    fun f s => ⟨_, exec_store f s, ?_, fun a ha => ?_, rfl⟩⟩
  · rw [State.memRead_advancePc, State.memRead_memWrite_self]
    exact trunc16_toNat s.acc
  · rw [State.memRead_advancePc]
    exact State.memRead_memWrite_of_ne s _ ha

/-- Settles O17: LOAD reads back the word STORE wrote, so ACC ends as its own low word, zero-extended. -/
theorem storeThenLoadKeepsTheLowWord : Obligations.StoreThenLoadKeepsTheLowWord := by
  intro f s _
  have hload := exec_loadMem f (s.memWrite (widx f) (trunc16 s.acc)).advancePc
  rw [State.memRead_advancePc, State.memRead_memWrite_self] at hload
  exact ⟨_, _, exec_store f s, hload, zext32_trunc16_toInt s.acc, zext32_trunc16_eq_self_iff s.acc⟩

end Sys2Proof.Proofs

/-! PROOFS of the family 41_io.md: the Word Decoder bit by bit, READ and WRITE. -/

namespace Sys2Proof.Proofs

open Sys2Proof.Machine

/-! ## The Word Decoder (41_io.md R63) -/

section
variable {token : List Char} {v : Word}

/-- One more character moves the bits read so far up by one and takes bit 0. -/
theorem tokenValue_append_singleton (token : List Char) (c : Char) :
    tokenValue (token ++ [c]) = Nat.bit (decide (c = '1')) (tokenValue token) := by
  rw [tokenValue, List.foldl_append, ← tokenValue, Nat.bit_val]
  by_cases hc : c = '1' <;> simp [hc]

/-- Bit `k` of the sum is set by the `k`-th character from the right, beyond the token by none. -/
theorem tokenValue_testBit (token : List Char) (k : Nat) :
    (tokenValue token).testBit k = decide (token.reverse[k]? = some '1') := by
  induction token using List.reverseRecOn generalizing k with
  | nil => simp [tokenValue]
  | append_singleton token c ih =>
    rw [tokenValue_append_singleton, List.reverse_concat]
    cases k with
    | zero => simp
    | succ k => rw [Nat.testBit_bit_succ, ih, List.getElem?_cons_succ]

/-- The bits of the decoded word, the first character at the top. -/
theorem ofNat_tokenValue_getLsbD (hlen : token.length = 16) {i : Nat} (hi : i < 16) :
    (BitVec.ofNat 16 (tokenValue token)).getLsbD (15 - i) = decide (token[i]? = some '1') := by
  have hrev : token.reverse[15 - i]? = token[i]? := by
    rw [List.getElem?_reverse (by omega)]
    congr 1
    omega
  have hlt : decide (15 - i < 16) = true := decide_eq_true (by omega)
  rw [BitVec.getLsbD_ofNat, hlt, Bool.true_and, tokenValue_testBit, hrev]

/-- Two words whose bits agree, counted from the top, are equal. -/
theorem eq_of_getLsbD_from_top {u v : Word} (h : ∀ i < 16, u.getLsbD (15 - i) = v.getLsbD (15 - i)) : u = v := by
  apply BitVec.eq_of_getLsbD_eq
  intro k hk
  have hkk : 15 - (15 - k) = k := by omega
  simpa only [hkk] using h (15 - k) (by omega)

theorem wordOfToken_of_length (hlen : token.length = 16) :
    wordOfToken token = some (BitVec.ofNat 16 (tokenValue token)) := if_pos hlen

/-- A token of another length gives no word (92_eei_decisions.md D19). -/
theorem wordOfToken_of_length_ne (hlen : token.length ≠ 16) : wordOfToken token = none := if_neg hlen

/-- A token of 16 characters decodes to the one word that has its bits. -/
theorem wordOfToken_eq_some (hlen : token.length = 16)
    (hbits : ∀ i < 16, v.getLsbD (15 - i) = decide (token[i]? = some '1')) : wordOfToken token = some v := by
  rw [wordOfToken_of_length hlen]
  exact congrArg some (eq_of_getLsbD_from_top fun i hi => by rw [ofNat_tokenValue_getLsbD hlen hi, hbits i hi])

theorem tokenOfWord_length (v : Word) : (tokenOfWord v).length = 16 := by
  rw [tokenOfWord, List.length_map, List.length_range]

/-- The rendering of a word has a `1` exactly at the word's set bits, the top one first. -/
theorem decide_tokenOfWord_getElem? (v : Word) {i : Nat} (hi : i < 16) :
    decide ((tokenOfWord v)[i]? = some '1') = v.getLsbD (15 - i) := by
  rw [tokenOfWord, List.getElem?_map, List.getElem?_range hi, Option.map_some]
  cases v.getLsbD (15 - i) <;> rfl

end

/-- Settles O6: the bits by induction on the token from its right end; the rendering of a word has the word's own bits. -/
theorem wordDecoderReadsTokensMsbFirst : Obligations.WordDecoderReadsTokensMsbFirst := by
  refine ⟨fun token hlen => ⟨_, wordOfToken_of_length hlen, fun i hi => ofNat_tokenValue_getLsbD hlen hi⟩,
    fun v => wordOfToken_eq_some (tokenOfWord_length v) fun i hi => ?_, fun token hlen => wordOfToken_of_length_ne hlen⟩
  exact (decide_tokenOfWord_getElem? v hi).symm

/-! ## READ and WRITE (41_io.md R65, R66) -/

section
variable (f : OpField) {s : State}

/-- The mask of READ keeps the low 12 bits. -/
theorem and_readMask_toNat (w : Word) : (w &&& Config.readMask).toNat = w.toNat % 4096 := by
  have hmask : Config.readMask.toNat = 2 ^ 12 - 1 := rfl
  rw [BitVec.toNat_and, hmask, Nat.and_two_pow_sub_one_eq_mod]

theorem exec_read_of_nil (hin : s.input = []) : exec (.read f) s = .next (s.raiseFault .inputExhausted) := by
  change execRead f s = _
  rw [execRead, State.inPop?_eq_none.2 hin]

theorem exec_read_of_cons {w : Word} {rest : List Word} (hin : s.input = w :: rest) :
    exec (.read f) s = .next ((s.setInput rest).memWrite (widx f) (w &&& Config.readMask)).advancePc := by
  change execRead f s = _
  rw [execRead, State.inPop?_eq_some.2 ⟨rest, hin, rfl⟩]

theorem exec_write (s : State) : exec (.write f) s = .next (s.outPush (s.memRead (widx f))).advancePc := rfl

end

/-- Settles O18: the words by the row of READ, the fault stop and the store by whether IN holds a word. -/
theorem readResult : Obligations.ReadResult := by
  refine ⟨fun w hw => decode_of_fitsRow (i := .read (operandField w)) hw fun _ => rfl,
    fun f s => ⟨exec_read_of_nil f, fun w rest hin => ⟨_, exec_read_of_cons f hin, ?_, fun a ha => ?_, rfl⟩⟩⟩
  · rw [State.memRead_advancePc, State.memRead_memWrite_self]
    exact and_readMask_toNat w
  · rw [State.memRead_advancePc]
    exact State.memRead_memWrite_of_ne (s.setInput rest) _ ha

/-- Settles O19: the words by the row of WRITE, the effect by its one update of OUT. -/
theorem writeResult : Obligations.WriteResult :=
  ⟨fun w hw => decode_of_fitsRow (i := .write (operandField w)) hw fun _ => rfl, exec_write⟩

end Sys2Proof.Proofs

/-! PROOFS of the family 42_arithmetic.md: the two ends of the ALU, ADD, SUB, MUL and NEG by their exact result, DIV and MOD by
the truncated division. -/

namespace Sys2Proof.Proofs

open Sys2Proof.Machine

/-- The accumulator's own value is in its range (10_state.md R13). -/
theorem s32_toInt (v : Acc) : s32 v.toInt = true :=
  s32_iff.2 ⟨BitVec.le_toInt v, Int.le_sub_one_of_lt BitVec.toInt_lt⟩

/-! ## ADD, SUB, MUL and NEG: the exact result is checked (42_arithmetic.md R69) -/

section
variable {r : Int} {s : State} {i : Instr}

theorem finishChecked_of_s32 (h : s32 r = true) :
    finishChecked r s = .next (s.setAcc (BitVec.ofInt 32 r)).advancePc := if_pos h

theorem finishChecked_of_not_s32 (h : ¬ s32 r = true) : finishChecked r s = .next (s.raiseFault .accOverflow) := if_neg h

theorem checked_finishChecked (r : Int) (s : State) : Claims.Checked (finishChecked r s) s r := by
  refine ⟨fun hin => ?_, fun hout => finishChecked_of_not_s32 (mt s32_iff.1 hout)⟩
  have hr : s32 r = true := s32_iff.2 hin
  exact accBecomes_of_setAcc s (finishChecked_of_s32 hr) (toInt_ofInt_of_s32 hr)

/-- The instructions with an exact result hand it to the range test; an immediate operand is the field's own value. -/
theorem exec_of_exactResult (h : Claims.exactResult i s = some r) : exec i s = finishChecked r s := by
  cases i with
  | addMem f | subMem f | mulMem f =>
    cases h
    rfl
  | addImm f | subImm f | mulImm f =>
    cases h
    rw [← srcImm_toNat f]
    rfl
  | neg =>
    cases h
    rw [← Int.zero_sub]
    rfl
  | _ => cases h

theorem checked_of_exactResult (h : Claims.exactResult i s = some r) : Claims.Checked (exec i s) s r := by
  rw [exec_of_exactResult h]
  exact checked_finishChecked r s

end

/-- Settles O20: the words by the two rows of ADD, the values by its exact result. -/
theorem addResult : Obligations.AddResult :=
  ⟨fun w hw => decode_of_fitsRow (i := .addMem (operandField w)) hw fun _ => rfl,
    fun w hw => decode_of_fitsRow (i := .addImm (operandField w)) hw fun _ => rfl,
    fun _ _ => ⟨fun _ => checked_of_exactResult rfl, fun _ => checked_of_exactResult rfl⟩⟩

/-- Settles O21: the words by the two rows of SUB, the values by its exact result. -/
theorem subResult : Obligations.SubResult :=
  ⟨fun w hw => decode_of_fitsRow (i := .subMem (operandField w)) hw fun _ => rfl,
    fun w hw => decode_of_fitsRow (i := .subImm (operandField w)) hw fun _ => rfl,
    fun _ _ => ⟨fun _ => checked_of_exactResult rfl, fun _ => checked_of_exactResult rfl⟩⟩

/-- Settles O22: the words by the two rows of MUL, the values by its exact result. -/
theorem mulResult : Obligations.MulResult :=
  ⟨fun w hw => decode_of_fitsRow (i := .mulMem (operandField w)) hw fun _ => rfl,
    fun w hw => decode_of_fitsRow (i := .mulImm (operandField w)) hw fun _ => rfl,
    fun _ _ => ⟨fun _ => checked_of_exactResult rfl, fun _ => checked_of_exactResult rfl⟩⟩

/-! ## DIV and MOD: truncated division by a source that is not zero (42_arithmetic.md R70) -/

/-- Truncating division and its remainder are the pair R70 describes. -/
theorem truncatedDivision_tdiv_tmod (n : Int) {d : Int} (hd : 0 < d) :
    Claims.TruncatedDivision n d (n.tdiv d) (n.tmod d) := by
  refine ⟨(Int.tdiv_mul_add_tmod n d).symm, Int.lt_tmod_of_pos n hd, Int.tmod_lt_of_pos n hd, fun hn => ?_, fun hn => ?_⟩
  · exact Int.tmod_nonneg d hn
  · have hneg : 0 ≤ (-n).tmod d := Int.tmod_nonneg d (by omega)
    rw [Int.neg_tmod] at hneg
    omega

section
variable {src : Word} {r : Int} {s : State} {f : OpField}

/-- The quotient lies between 0 and the dividend: the divisor is positive, so R69's -2^31 / -1 cannot occur. -/
theorem s32_tdiv {n d : Int} (hn : s32 n = true) (hd : 0 < d) : s32 (n.tdiv d) = true := by
  have hdn : 0 ≤ d := by omega
  rw [s32_iff] at hn ⊢
  rcases le_total 0 n with h | h
  · have hlow : 0 ≤ n.tdiv d := Int.tdiv_nonneg h hdn
    have hhigh : n.tdiv d ≤ n := Int.tdiv_le_self d h
    omega
  · have hlow : 0 ≤ (-n).tdiv d := Int.tdiv_nonneg (by omega) hdn
    have hhigh : (-n).tdiv d ≤ -n := Int.tdiv_le_self d (by omega)
    rw [Int.neg_tdiv] at hlow hhigh
    omega

/-- The magnitude of the remainder is below the divisor, a word. -/
theorem s32_tmod (n : Int) (hsrc : 0 < (src.toNat : Int)) : s32 (n.tmod src.toNat) = true := by
  obtain ⟨-, hlow, hhigh, -, -⟩ := truncatedDivision_tdiv_tmod n hsrc
  have hword := src.isLt
  exact s32_iff.2 ⟨by omega, by omega⟩

theorem divisor_pos (h : src ≠ 0) : 0 < (src.toNat : Int) :=
  Int.natCast_pos.2 (Nat.pos_of_ne_zero fun h0 => h (BitVec.eq_of_toNat_eq h0))

theorem finishDivision_of_zero : finishDivision 0 r s = .next (s.raiseFault .divZero) := if_pos rfl

theorem finishDivision_of_ne_zero (h : src ≠ 0) :
    finishDivision src r s = .next (s.setAcc (BitVec.ofInt 32 r)).advancePc := if_neg h

theorem accBecomes_finishDivision (hsrc : src ≠ 0) (hr : s32 r = true) :
    Claims.AccBecomes (finishDivision src r s) s r :=
  accBecomes_of_setAcc s (finishDivision_of_ne_zero hsrc) (toInt_ofInt_of_s32 hr)

/-- DIV by a source that is not zero: ACC takes the truncated quotient. -/
theorem divSrc_quotient (hsrc : src ≠ 0) : ∃ q r, Claims.TruncatedDivision s.acc.toInt src.toNat q r ∧
    Claims.AccBecomes (divSrc src s) s q :=
  have hpos := divisor_pos hsrc
  ⟨_, _, truncatedDivision_tdiv_tmod _ hpos, accBecomes_finishDivision hsrc (s32_tdiv (s32_toInt s.acc) hpos)⟩

/-- MOD by a source that is not zero: ACC takes the remainder. -/
theorem modSrc_remainder (hsrc : src ≠ 0) : ∃ q r, Claims.TruncatedDivision s.acc.toInt src.toNat q r ∧
    Claims.AccBecomes (modSrc src s) s r :=
  have hpos := divisor_pos hsrc
  ⟨_, _, truncatedDivision_tdiv_tmod _ hpos, accBecomes_finishDivision hsrc (s32_tmod _ hpos)⟩

theorem exec_divMem : exec (.divMem f) s = divSrc (s.memRead (widx f)) s := rfl

theorem exec_divImm : exec (.divImm f) s = divSrc (srcImm f) s := rfl

theorem exec_modMem : exec (.modMem f) s = modSrc (s.memRead (widx f)) s := rfl

theorem exec_modImm : exec (.modImm f) s = modSrc (srcImm f) s := rfl

end

/-- Settles O23: the words by the two rows of DIV, the stop by a zero word, the quotient by `divSrc_quotient`; an immediate is
never zero. -/
theorem divResult : Obligations.DivResult := by
  refine ⟨fun w hw => decode_of_fitsRow (i := .divMem (operandField w)) hw fun _ => rfl,
    fun w hw => decode_of_fitsRow (i := .divImm (operandField w)) hw fun _ => rfl,
    fun f s => ⟨fun _ hzero => ?_, fun _ hne => ?_, fun himm => ?_⟩⟩
  · rw [exec_divMem, hzero]
    exact finishDivision_of_zero
  · rw [exec_divMem]
    exact divSrc_quotient hne
  · rw [exec_divImm, ← srcImm_toNat f]
    exact divSrc_quotient (srcImm_ne_zero himm)

/-- Settles O24: as DIV, with the rows of MOD and the remainder by `modSrc_remainder`. -/
theorem modResult : Obligations.ModResult := by
  refine ⟨fun w hw => decode_of_fitsRow (i := .modMem (operandField w)) hw fun _ => rfl,
    fun w hw => decode_of_fitsRow (i := .modImm (operandField w)) hw fun _ => rfl,
    fun f s => ⟨fun _ hzero => ?_, fun _ hne => ?_, fun himm => ?_⟩⟩
  · rw [exec_modMem, hzero]
    exact finishDivision_of_zero
  · rw [exec_modMem]
    exact modSrc_remainder hne
  · rw [exec_modImm, ← srcImm_toNat f]
    exact modSrc_remainder (srcImm_ne_zero himm)

/-! ## NEG (42_arithmetic.md R77) -/

section
variable {s : State}

/-- The negation of ACC fits for all values but the least. -/
theorem inRange_neg_acc_iff (v : Acc) : Claims.InRange (-v.toInt) ↔ v.toInt ≠ -2147483648 := by
  obtain ⟨hlow, hhigh⟩ := s32_iff.1 (s32_toInt v)
  rw [Claims.InRange]
  omega

theorem checked_neg (s : State) : Claims.Checked (exec .neg s) s (-s.acc.toInt) := checked_of_exactResult rfl

theorem accBecomes_neg (h : s.acc.toInt ≠ -2147483648) : Claims.AccBecomes (exec .neg s) s (-s.acc.toInt) :=
  (checked_neg s).1 ((inRange_neg_acc_iff s.acc).2 h)

theorem faultStops_neg (h : s.acc.toInt = -2147483648) : Claims.FaultStops (exec .neg s) s .accOverflow :=
  (checked_neg s).2 fun hin => (inRange_neg_acc_iff s.acc).1 hin h

end

/-- Settles O25: the words by the row of NEG, the two ends by whether the negation fits. -/
theorem negResult : Obligations.NegResult :=
  ⟨fun _ hw => decode_of_fitsRow (i := .neg) hw nofun, fun _ => ⟨accBecomes_neg, faultStops_neg⟩⟩

/-- Settles O26: the negation is not the least value either, so the second NEG negates it back. -/
theorem negTwiceRestoresTheAccumulator : Obligations.NegTwiceRestoresTheAccumulator := by
  intro s hs
  obtain ⟨t, hst, htacc, ht⟩ := accBecomes_neg hs
  have hne : t.acc.toInt ≠ -2147483648 := by
    obtain ⟨-, hhigh⟩ := s32_iff.1 (s32_toInt s.acc)
    omega
  obtain ⟨u, htu, huacc, hu⟩ := accBecomes_neg hne
  have hacc : u.acc = s.acc := BitVec.eq_of_toInt_eq (by rw [huacc, htacc, Int.neg_neg])
  have hpc : s.pc + 1 + 1 = s.pc + 2 := BitVec.add_assoc s.pc 1 1
  refine ⟨t, u, hst, htu, hacc, ?_⟩
  rw [hu, hacc, ht, hpc]

end Sys2Proof.Proofs

/-! PROOFS of the family 43_control_transfer.md: the two tests of the accumulator, then the jumps by whether they are taken. -/

namespace Sys2Proof.Proofs

open Sys2Proof.Machine

/-! ## The tests of the conditional jumps (10_state.md R20) -/

section
variable {s : State}

theorem accNegative_iff : s.accNegative = true ↔ s.acc.toInt < 0 := decide_eq_true_iff

/-- All 32 bits are zero exactly where the value is. -/
theorem accZero_iff : s.accZero = true ↔ s.acc.toInt = 0 :=
  decide_eq_true_iff.trans BitVec.toInt_inj.symm

/-- The test of JNEG is the sign bit of the full accumulator (43_control_transfer.md R81). -/
theorem signBit_iff_toInt_neg (v : Acc) : v.getLsbD 31 = true ↔ v.toInt < 0 := by
  have hmsb : v.msb = v.getLsbD 31 := BitVec.msb_eq_getLsbD_last v
  rw [← hmsb, BitVec.msb_eq_toInt, decide_eq_true_iff]

end

/-! ## JMP, JNEG and JZERO -/

section
variable (f : OpField) (s : State)

theorem exec_jmp : exec (.jmp f) s = .next (s.setPc (target f)) := rfl

theorem exec_jneg : exec (.jneg f) s = jumpIf s.accNegative f s := rfl

theorem exec_jzero : exec (.jzero f) s = jumpIf s.accZero f s := rfl

/-- An outcome that sets PC to the target of a field jumps to half the field. -/
theorem jumpsTo_of_setPc {o : Result} (ho : o = .next (s.setPc (target f))) : Claims.JumpsTo o s f :=
  ⟨_, ho, target_toNat f, rfl⟩

theorem jumpsTo_jumpIf {c : Bool} (hc : c = true) : Claims.JumpsTo (jumpIf c f s) s f :=
  jumpsTo_of_setPc f s (if_pos hc)

theorem onlyAdvances_jumpIf {c : Bool} (hc : ¬ c = true) : Claims.OnlyAdvances (jumpIf c f s) s := if_neg hc

end

/-- Settles O28: the words by the row of JNEG, the effect by the sign of ACC. -/
theorem jnegResult : Obligations.JnegResult := by
  refine ⟨fun w hw => decode_of_fitsRow (i := .jneg (operandField w)) hw fun _ => rfl,
    fun f s => ⟨signBit_iff_toInt_neg s.acc, fun hneg => ?taken, fun hnonneg => ?notTaken⟩⟩
  case taken =>
    rw [exec_jneg]
    exact jumpsTo_jumpIf f s (accNegative_iff.2 hneg)
  case notTaken =>
    rw [exec_jneg]
    exact onlyAdvances_jumpIf f s (mt accNegative_iff.1 (not_lt.2 hnonneg))

/-- Settles O29: the words by the row of JZERO, the effect by whether ACC is zero. -/
theorem jzeroResult : Obligations.JzeroResult := by
  refine ⟨fun w hw => decode_of_fitsRow (i := .jzero (operandField w)) hw fun _ => rfl,
    fun f s => ⟨fun hzero => ?taken, fun hne => ?notTaken⟩⟩
  case taken =>
    rw [exec_jzero]
    exact jumpsTo_jumpIf f s (accZero_iff.2 hzero)
  case notTaken =>
    rw [exec_jzero]
    exact onlyAdvances_jumpIf f s (mt accZero_iff.1 hne)

/-- Settles O27: the words by the row of JMP, the effect by its one update of PC. -/
theorem jmpResult : Obligations.JmpResult :=
  ⟨fun w hw => decode_of_fitsRow (i := .jmp (operandField w)) hw fun _ => rfl,
    fun f s => jumpsTo_of_setPc f s (exec_jmp f s)⟩

end Sys2Proof.Proofs

/-! PROOFS of the family 44_nop_end_halt.md: the three instructions without an operand and without a data effect, then what a
step into HALTED was. -/

namespace Sys2Proof.Proofs

open Sys2Proof.Machine

/-! ## END, NOP and HALT -/

section
variable (s : State)

theorem exec_endOp : exec .endOp s = .next s.advancePc := rfl

theorem exec_nop : exec .nop s = .next s.advancePc := rfl

theorem exec_halt : exec .halt s = .next (s.setPhase .halted) := rfl

end

section
variable {w : Word}

/-- The operand field of an END is ignored (R83). -/
theorem decode_endOp (hw : w &&& 0xF000 = 0x0000) : decode w = .endOp :=
  decode_of_fitsRow (i := .endOp) hw nofun

theorem decode_nop (hw : w &&& 0xF000 = 0xB000) : decode w = .nop :=
  decode_of_fitsRow (i := .nop) hw nofun

theorem decode_halt (hw : w &&& 0xF000 = 0xF000) : decode w = .halt :=
  decode_of_fitsRow (i := .halt) hw nofun

/-- The loader's sentinel is an END, so no NOP word is the sentinel (R84). -/
theorem decode_zero : decode 0x0000 = .endOp := decode_endOp rfl

theorem ne_zero_of_decode_nop (h : decode w = .nop) : w ≠ 0 := by
  rintro rfl
  exact absurd (decode_zero.symm.trans h) nofun

end

/-! ## The steps into HALTED (R85) -/

section
variable {s t : State}

/-- The loader never enters HALTED: PHASE goes there from RUN alone (10_state.md R21). -/
theorem phase_eq_run_of_enters_halted (h : step s = .next t) (ht : t.phase = .halted) : s.phase = .run := by
  obtain ⟨-, -, -, -, hmoves⟩ := phaseMovesOnlyAsDrawn
  rcases hmoves s t h with ⟨-, hload | hrun | hfault⟩ | ⟨hp, -⟩
  · exact absurd (ht.symm.trans hload) nofun
  · exact absurd (ht.symm.trans hrun) nofun
  · exact absurd (ht.symm.trans hfault) nofun
  · exact hp

/-- Of the ends of an instruction run in RUN, only HALT's leads to HALTED. -/
theorem Ends.halted_inv {i : Instr} (h : Ends i s t) (hp : s.phase = .run) (ht : t.phase = .halted) :
    i = .halt ∧ t = s.setPhase .halted := by
  rcases h with hc | hhalt | ⟨c, -, rfl⟩
  · exact absurd (hp.symm.trans (hc.phase_eq.symm.trans ht)) nofun
  · exact hhalt
  · exact absurd ht nofun

/-- A step into HALTED ran the HALT word it fetched, from the state that has the word latched. -/
theorem step_into_halted (h : step s = .next t) (ht : t.phase = .halted) :
    Claims.runs s .halt ∧ t = (s.latch s.fetchWord).setPhase .halted := by
  have hp := phase_eq_run_of_enters_halted h ht
  rcases step_ends h with ⟨hload, -⟩ | ⟨-, ⟨-, rfl⟩ | ⟨hpc, he⟩⟩
  · exact absurd (hp.symm.trans hload) nofun
  · exact absurd ht nofun
  · obtain ⟨hi, rfl⟩ := he.halted_inv hp ht
    exact ⟨⟨hp, hpc, hi⟩, rfl⟩

end

/-- Settles O32: the step ran HALT, and the opcode latched from its word is 15. -/
theorem onlyHaltEntersHalted : Obligations.OnlyHaltEntersHalted := by
  intro s t h ht
  obtain ⟨⟨hp, hpc, hi⟩, rfl⟩ := step_into_halted h ht
  have hopc : opcodeField s.fetchWord = 15 := by rw [← decode_opcode, hi]; rfl
  refine ⟨⟨hp, hpc, hi⟩, ?_⟩
  rw [← hopc]
  rfl

/-- Settles O30: the words by the rows of END and NOP, the effect by their one update of PC. -/
theorem endAndNopOnlyAdvance : Obligations.EndAndNopOnlyAdvance :=
  ⟨fun _ => decode_endOp, fun _ => decode_nop, decode_zero, fun _ hw => ne_zero_of_decode_nop (decode_nop hw),
    fun s => ⟨exec_endOp s, exec_nop s⟩⟩

/-- Settles O31: the words by the row of HALT, the effect by its one update of PHASE. -/
theorem haltResult : Obligations.HaltResult :=
  ⟨fun _ => decode_halt, exec_halt⟩

end Sys2Proof.Proofs

/-! PROOFS of the family 60_exceptions.md: what a step into FAULT was, and when each cause is raised. -/

namespace Sys2Proof.Proofs

open Sys2Proof.Machine

/-! ## The steps into FAULT (60_exceptions.md R88) -/

section
variable {i : Instr} {s t : State}

/-- The two causes of the other stages, FETCH_RANGE and LOAD_OVERFLOW, are raised by no instruction. -/
theorem Raises.execute_stage {c : FCause} (h : Raises i s c) : c ≠ .fetchRange ∧ c ≠ .loadOverflow := by
  cases h <;> exact ⟨nofun, nofun⟩

theorem loaderStep_into_fault (h : loaderStep s = .next t) (hp : s.phase = .load) (ht : t.phase = .fault) :
    s.input ≠ [] ∧ Config.memWords ≤ s.ldptr.toNat ∧ t = s.raiseFault .loadOverflow := by
  rcases loaderStep_cases h with ⟨-, rfl⟩ | hover | ⟨w, rest, -, -, ⟨-, rfl⟩ | ⟨-, rfl⟩⟩
  · exact absurd ht nofun
  · exact hover
  · exact absurd ht nofun
  · exact absurd (hp.symm.trans ht) nofun

/-- Of the ends of an instruction run in RUN, only a raised cause leads to FAULT. -/
theorem Ends.fault_inv (h : Ends i s t) (hp : s.phase = .run) (ht : t.phase = .fault) :
    ∃ c, Raises i s c ∧ t = s.raiseFault c := by
  rcases h with hc | ⟨-, rfl⟩ | hraise
  · exact absurd (hp.symm.trans (hc.phase_eq.symm.trans ht)) nofun
  · exact absurd ht nofun
  · exact hraise

/-- A step into FAULT is the loader's overflow, the fetch past the memory, or a cause that the fetched instruction raises in the
state that has its word latched. -/
theorem step_into_fault (h : step s = .next t) (ht : t.phase = .fault) :
    (s.phase = .load ∧ s.input ≠ [] ∧ Config.memWords ≤ s.ldptr.toNat ∧ t = s.raiseFault .loadOverflow) ∨
      (s.phase = .run ∧ Config.memWords ≤ s.pc.toNat ∧ t = s.raiseFault .fetchRange) ∨
      ∃ i c, Claims.runs s i ∧ Raises i (s.latch s.fetchWord) c ∧ t = (s.latch s.fetchWord).raiseFault c := by
  rcases step_ends h with ⟨hp, hl⟩ | ⟨hp, ⟨hpc, rfl⟩ | ⟨hpc, he⟩⟩
  · exact .inl ⟨hp, loaderStep_into_fault hl hp ht⟩
  · exact .inr (.inl ⟨hp, hpc, rfl⟩)
  · obtain ⟨c, hr, rfl⟩ := he.fault_inv hp ht
    exact .inr (.inr ⟨_, c, ⟨hp, hpc, rfl⟩, hr, rfl⟩)

theorem step_ne_next_of_fault (hp : s.phase = .fault) : step s ≠ .next t := by
  simp [step, hp]

end

/-- Settles O39: each of the three stops of `step_into_fault` is a `State.raiseFault`, after the latch where an instruction
raises it. -/
theorem faultStopEntryIsPrecise : Obligations.FaultStopEntryIsPrecise := by
  intro s t h ht
  have hstop : ∀ u, step t ≠ .next u := fun _ => step_ne_next_of_fault ht
  rcases step_into_fault h ht with ⟨-, -, -, rfl⟩ | ⟨-, -, rfl⟩ | ⟨i, c, -, hr, rfl⟩
  · exact ⟨nofun, rfl, fun _ => ⟨rfl, rfl, rfl⟩, fun _ hne => absurd rfl hne, hstop⟩
  · exact ⟨nofun, rfl, fun _ => ⟨rfl, rfl, rfl⟩, fun hne => absurd rfl hne, hstop⟩
  · obtain ⟨hfetch, hload⟩ := hr.execute_stage
    exact ⟨hr.ne_none, rfl, fun hc => (hc.elim hfetch hload).elim, fun _ _ => ⟨rfl, rfl, rfl⟩, hstop⟩

/-! ## When each cause is raised (60_exceptions.md R90 to R94) -/

/-- What the state before a step shows of the fault stop it is about to take. -/
def FaultCondition (s : State) : FCause → Prop
  | .none => False
  | .fetchRange => s.phase = .run ∧ 2048 ≤ s.pc.toNat
  | .divZero => ∃ f, (Claims.runs s (.divMem f) ∨ Claims.runs s (.modMem f)) ∧ s.memRead (widx f) = 0
  | .accOverflow => ∃ i r, Claims.runs s i ∧ Claims.exactResult i s = some r ∧ ¬ Claims.InRange r
  | .inputExhausted => ∃ f, Claims.runs s (.read f) ∧ s.input = []
  | .loadOverflow => s.phase = .load ∧ s.ldptr.toNat = 2048 ∧ s.input ≠ []

section
variable {i : Instr} {s t : State} {c : FCause} {r : Int}

theorem step_of_runs (h : Claims.runs s i) : step s = exec i (s.latch s.fetchWord) := by
  obtain ⟨hp, hpc, rfl⟩ := h
  rw [step_of_run hp, runStep, if_pos (by simpa [State.pcInRange] using hpc)]

theorem wellFormed_of_runs (h : Claims.runs s i) : i.wellFormed = true := by
  obtain ⟨-, -, rfl⟩ := h
  exact decode_wellFormed _

/-- The exact result is of ACC and the memory, which the latch leaves alone. -/
theorem exactResult_latch (i : Instr) (s : State) (w : Word) :
    Claims.exactResult i (s.latch w) = Claims.exactResult i s := by
  cases i <;> rfl

theorem exists_exactResult (s : State) (hi : i.opcode = 5 ∨ i.opcode = 6 ∨ i.opcode = 7 ∨ i.opcode = 10) :
    ∃ r, Claims.exactResult i s = some r := by
  cases i with
  | addMem f | addImm f | subMem f | subImm f | mulMem f | mulImm f | neg => exact ⟨_, rfl⟩
  | _ => simp [Instr.opcode] at hi

theorem not_inRange_of_exec_into_fault (hr : Claims.exactResult i s = some r) (h : exec i s = .next t)
    (hp : s.phase = .run) (ht : t.phase = .fault) : ¬ Claims.InRange r := by
  rw [exec_of_exactResult hr] at h
  rcases finishChecked_cases h with ⟨-, rfl⟩ | ⟨hout, -⟩
  · exact absurd (hp.symm.trans ht) nofun
  · exact fun hin => Bool.false_ne_true (hout.symm.trans (s32_iff.2 hin))

/-- The cause that the fetched instruction raises has its condition in the state before the step. -/
theorem faultCondition_of_raises (hi : Claims.runs s i) (hr : Raises i (s.latch s.fetchWord) c)
    (h : step s = .next ((s.latch s.fetchWord).raiseFault c)) : FaultCondition s c := by
  have ⟨hp, _, _⟩ := hi
  cases hr with
  | overflow hopc =>
    obtain ⟨r, hr⟩ := exists_exactResult (s.latch s.fetchWord) hopc
    have hout : ¬ Claims.InRange r :=
      not_inRange_of_exec_into_fault hr ((step_of_runs hi).symm.trans h) hp rfl
    exact ⟨i, r, hi, (exactResult_latch i s _).symm.trans hr, hout⟩
  | zeroWord f hdiv hz =>
    refine ⟨f, ?_, hz⟩
    rcases hdiv with rfl | rfl
    · exact .inl hi
    · exact .inr hi
  | zeroImm f hdiv hz =>
    have himm : immFieldOk f = true := by rcases hdiv with rfl | rfl <;> exact wellFormed_of_runs hi
    exact absurd hz (srcImm_ne_zero himm)
  | exhausted f hread hin =>
    subst hread
    exact ⟨f, hi, hin⟩

theorem faultCondition_of_step (hl : s.ldptr.toNat ≤ 2048) (h : step s = .next t) (ht : t.phase = .fault) :
    FaultCondition s t.fcause := by
  rcases step_into_fault h ht with ⟨hp, hin, hfull, rfl⟩ | ⟨hp, hpc, rfl⟩ | ⟨i, c, hi, hr, rfl⟩
  · exact ⟨hp, le_antisymm hl hfull, hin⟩
  · exact ⟨hp, hpc⟩
  · exact faultCondition_of_raises hi hr h

theorem step_of_loader_full (hp : s.phase = .load) (hfull : Config.memWords ≤ s.ldptr.toNat) (hin : s.input ≠ []) :
    step s = .next (s.raiseFault .loadOverflow) := by
  obtain ⟨w, rest, hw⟩ := List.exists_cons_of_ne_nil hin
  simp [step, hp, loaderStep, State.inPop?_eq_some.2 ⟨rest, hw, rfl⟩, hfull]

/-- Where a cause has its condition, the step takes the stop with that cause. -/
theorem step_of_faultCondition (hc : FaultCondition s c) : ∃ u : State, step s = .next (u.raiseFault c) := by
  cases c with
  | none => exact hc.elim
  | fetchRange =>
    obtain ⟨hp, hpc⟩ := hc
    exact ⟨s, step_of_past_memory hp hpc⟩
  | divZero =>
    obtain ⟨f, hi, hz⟩ := hc
    refine ⟨s.latch s.fetchWord, ?_⟩
    rcases hi with hi | hi
    · rw [step_of_runs hi, exec_divMem, State.memRead_latch, hz]
      exact finishDivision_of_zero
    · rw [step_of_runs hi, exec_modMem, State.memRead_latch, hz]
      exact finishDivision_of_zero
  | accOverflow =>
    obtain ⟨i, r, hi, hr, hout⟩ := hc
    obtain ⟨-, hstops⟩ := checked_of_exactResult ((exactResult_latch i s s.fetchWord).trans hr)
    exact ⟨s.latch s.fetchWord, (step_of_runs hi).trans (hstops hout)⟩
  | inputExhausted =>
    obtain ⟨f, hi, hin⟩ := hc
    exact ⟨s.latch s.fetchWord, (step_of_runs hi).trans (exec_read_of_nil f hin)⟩
  | loadOverflow =>
    obtain ⟨hp, hl, hin⟩ := hc
    exact ⟨s, step_of_loader_full hp hl.ge hin⟩

/-- A step has one answer, so the condition of a cause decides whether it is a stop with that cause. -/
theorem into_fault_iff (hl : s.ldptr.toNat ≤ 2048) (h : step s = .next t) (c : FCause) :
    t.phase = .fault ∧ t.fcause = c ↔ FaultCondition s c := by
  constructor
  · rintro ⟨ht, rfl⟩
    exact faultCondition_of_step hl h ht
  · intro hc
    obtain ⟨u, hu⟩ := step_of_faultCondition hc
    obtain rfl : t = u.raiseFault c := Host.Outcome.next.inj (h.symm.trans hu)
    exact ⟨rfl, rfl⟩

end

/-- Settles O40: each cause by its `FaultCondition`. -/
theorem faultCausesAndTheirConditions : Obligations.FaultCausesAndTheirConditions :=
  ⟨rfl, rfl, rfl, rfl, rfl, rfl, fun _ _ hl h =>
    ⟨into_fault_iff hl h .fetchRange, into_fault_iff hl h .divZero, into_fault_iff hl h .accOverflow,
      into_fault_iff hl h .inputExhausted, into_fault_iff hl h .loadOverflow⟩⟩

end Sys2Proof.Proofs

/-! PROOFS of the family 70_reset_and_hazards.md: the run step by the word at PC, the store that the next fetch sees, that a step
is always taken in LOAD and RUN, and the loader step by step until it hands over. -/

namespace Sys2Proof.Proofs

open Sys2Proof.Machine

/-! ## The run step by the word at PC (70_reset_and_hazards.md R104, R106, R108) -/

section
variable {s : State} {idx : WIdx} {w : Word}

theorem fetchWord_eq_memRead (hpc : s.pc.toNat = idx.toNat) : s.fetchWord = s.memRead idx := by
  have hidx : s.pcIndex = idx := by
    apply BitVec.eq_of_toNat_eq
    rw [State.pcIndex, BitVec.toNat_setWidth, hpc]
    exact Nat.mod_eq_of_lt idx.isLt
  rw [State.fetchWord, hidx]

theorem step_of_word_at_pc (hp : s.phase = .run) (hpc : s.pc.toNat = idx.toNat) (hw : s.memRead idx = w) :
    step s = exec (decode w) (s.latch w) := by
  have hfetch : s.fetchWord = w := (fetchWord_eq_memRead hpc).trans hw
  have hruns : Claims.runs s (decode w) := ⟨hp, hpc ▸ idx.isLt, by rw [hfetch]⟩
  rw [step_of_runs hruns, hfetch]

theorem decode_halt_of_opcodeField (hw : opcodeField w = 15) : decode w = .halt :=
  Fits.decode_eq ⟨hw.symm, rfl, nofun⟩

theorem step_of_halted (hp : s.phase = .halted) : step s = .fault .noStepHalted := by
  simp [step, hp]

theorem step_of_fault (hp : s.phase = .fault) : step s = .fault (.noStepFault s.fcause) := by
  simp [step, hp]

/-- STORE is read back from its word whatever the field, for it has one form only (30_encoding.md R53). -/
theorem step_of_store_at_pc {f : OpField} (hp : s.phase = .run) (hpc : s.pc.toNat < Config.memWords)
    (hw : s.fetchWord = encode (.store f)) :
    step s = .next ((s.latch s.fetchWord).memWrite (widx f) (trunc16 s.acc)).advancePc := by
  have hdec : decode s.fetchWord = .store f := by
    rw [hw]
    exact decodeReadsBackEveryEncodedInstruction _ rfl
  rw [step_of_runs ⟨hp, hpc, hdec⟩, exec_store, State.latch_acc]

end

/-- Settles O10: the stop before the fetch, the instruction fetched, and HALT as one such instruction. -/
theorem runStepExecutesTheDecodedWord : Obligations.RunStepExecutesTheDecodedWord := by
  intro s hp
  refine ⟨step_of_past_memory hp, fun idx w i hpc hw hi _ => ?_, fun idx w hpc hw hopc => ?_⟩
  · rw [step_of_word_at_pc hp hpc hw, hi]
    rfl
  · rw [step_of_word_at_pc hp hpc hw, decode_halt_of_opcodeField hopc, exec_halt, ← hopc]
    rfl

/-- Settles O11: the two phases in which `step` answers a named stop. -/
theorem stoppedUnitTakesNoStep : Obligations.StoppedUnitTakesNoStep :=
  fun _ => ⟨step_of_halted, step_of_fault⟩

/-- Settles O42: the STORE leaves PC at the index it wrote, so the next fetch is a read after that write. -/
theorem nextFetchSeesTheStore : Obligations.NextFetchSeesTheStore := by
  intro s f hp hpc hw hidx
  have hlt : s.pc.toNat < Config.memWords := Nat.lt_succ_of_lt hpc
  refine ⟨_, step_of_store_at_pc hp hlt hw, advanced_pc_toNat hlt, ?_⟩
  generalize ht : ((s.latch s.fetchWord).memWrite (widx f) (trunc16 s.acc)).advancePc = t
  have hpct : t.pc.toNat = (widx f).toNat := by
    rw [← ht, hidx]
    exact advanced_pc_toNat hlt
  have hread : t.memRead (widx f) = trunc16 s.acc := by
    rw [← ht, State.memRead_advancePc, State.memRead_memWrite_self]
  have hpt : t.phase = .run := by
    rw [← ht]
    exact hp
  exact ⟨(fetchWord_eq_memRead hpct).trans hread, step_of_word_at_pc hpt hpct hread⟩

/-! ## The loader step by what is left of the input (70_reset_and_hazards.md R102) -/

/-- The state with the word stored at LDPTR, LDPTR advanced and `rest` left of the input. -/
abbrev loadWord (s : State) (w : Word) (rest : List Word) : State :=
  ((s.setInput rest).memWrite s.ldIndex w).setLdptr (s.ldptr + 1)

section
variable {s t : State} {w : Word} {rest : List Word}

theorem step_of_load (hp : s.phase = .load) : step s = loaderStep s := by
  simp [step, hp]

theorem step_of_input_nil (hp : s.phase = .load) (hin : s.input = []) : step s = .next (s.setPhase .run) := by
  simp [step_of_load hp, loaderStep, State.inPop?_eq_none.2 hin]

theorem step_of_input_cons (hp : s.phase = .load) (hin : s.input = w :: rest) (hl : s.ldptr.toNat < Config.memWords) :
    step s = .next (if w = 0 then (loadWord s w rest).setPhase .run else loadWord s w rest) := by
  simp [step_of_load hp, loaderStep, State.inPop?_eq_some.2 ⟨rest, hin, rfl⟩, not_le.2 hl, loadWord]

theorem memRead_loadWord (hl : s.ldptr.toNat < Config.memWords) (i : WIdx) :
    (loadWord s w rest).memRead i = if i.toNat = s.ldptr.toNat then w else s.memRead i := by
  rw [← ldIndex_toNat hl, State.memRead_setLdptr]
  split
  · next h => rw [BitVec.eq_of_toNat_eq h, State.memRead_memWrite_self]
  · next h => rw [State.memRead_memWrite_of_ne _ _ fun e => h (congrArg _ e), State.memRead_setInput]

theorem loaderStep_pc (h : loaderStep s = .next t) : t.pc = s.pc := by
  rcases loaderStep_cases h with ⟨-, rfl⟩ | ⟨-, -, rfl⟩ | ⟨w, rest, -, -, ⟨-, rfl⟩ | ⟨-, rfl⟩⟩ <;> rfl

/-- A loader step that does not end loading has consumed a word. -/
theorem input_of_stays_in_load (hp : s.phase = .load) (h : step s = .next t) (ht : t.phase = .load) :
    ∃ w, s.input = w :: t.input := by
  rw [step_of_load hp] at h
  rcases loaderStep_cases h with ⟨-, rfl⟩ | ⟨-, -, rfl⟩ | ⟨w, rest, hin, -, ⟨-, rfl⟩ | ⟨-, rfl⟩⟩
  · cases ht
  · cases ht
  · cases ht
  · exact ⟨w, hin⟩

end

/-- Settles O9: one rule per clause, and in the clause that stores, one answer for both values of the sentinel test. -/
theorem loaderStepStoresOneWordOrHandsOver : Obligations.LoaderStepStoresOneWordOrHandsOver := by
  intro s hp
  refine ⟨step_of_input_nil hp, fun w rest hin hfull => step_of_loader_full hp hfull.ge (by simp [hin]),
    fun w rest hin hl => ⟨_, step_of_input_cons hp hin hl, ?_⟩, fun t h hpc => ?_⟩
  · split
    · exact ⟨rfl, advanced_ldptr_toNat hl, memRead_loadWord hl, rfl⟩
    · exact ⟨hp, advanced_ldptr_toNat hl, memRead_loadWord hl, rfl⟩
  · rw [step_of_load hp] at h
    exact (loaderStep_pc h).trans hpc

/-! ## A step is always taken in LOAD and RUN (70_reset_and_hazards.md R101, R114) -/

section
variable (s : State)

theorem exists_finishChecked (r : Int) : ∃ t, finishChecked r s = .next t := by
  unfold finishChecked; split <;> exact ⟨_, rfl⟩

theorem exists_finishDivision (src : Word) (r : Int) : ∃ t, finishDivision src r s = .next t := by
  unfold finishDivision; split <;> exact ⟨_, rfl⟩

theorem exists_jumpIf (c : Bool) (f : OpField) : ∃ t, jumpIf c f s = .next t := by
  unfold jumpIf; split <;> exact ⟨_, rfl⟩

theorem exists_execRead (f : OpField) : ∃ t, execRead f s = .next t := by
  unfold execRead; split <;> exact ⟨_, rfl⟩

/-- No instruction is refused, and none stops the unit but by a next state. -/
theorem exists_exec (i : Instr) : ∃ t, exec i s = .next t := by
  cases i with
  | addMem f | addImm f | subMem f | subImm f | mulMem f | mulImm f | neg => exact exists_finishChecked s _
  | divMem f | divImm f | modMem f | modImm f => exact exists_finishDivision s _ _
  | jneg f | jzero f => exact exists_jumpIf s _ f
  | read f => exact exists_execRead s f
  | endOp | loadMem f | loadImm f | store f | write f | nop | jmp f | halt => exact ⟨_, rfl⟩

end

/-- Settles O12: in LOAD by what is left of the input and room in the memory, in RUN by the range check. -/
theorem loadAndRunAlwaysTakeAStep : Obligations.LoadAndRunAlwaysTakeAStep := by
  rintro s (hp | hp)
  · cases hin : s.input with
    | nil => exact ⟨_, step_of_input_nil hp hin⟩
    | cons w rest =>
      rcases lt_or_ge s.ldptr.toNat Config.memWords with hl | hfull
      · exact ⟨_, step_of_input_cons hp hin hl⟩
      · exact ⟨_, step_of_loader_full hp hfull (by simp [hin])⟩
  · rcases lt_or_ge s.pc.toNat Config.memWords with hpc | hpc
    · rw [step_of_runs ⟨hp, hpc, rfl⟩]
      exact exists_exec _ _
    · exact ⟨_, step_of_past_memory hp hpc⟩

/-! ## The loading phase (70_reset_and_hazards.md R103, R114) -/

section
variable {M : Host.Core} {s t : M.State}

theorem run_succ_of_step (k : Nat) (h : M.step s = .next t) : M.run (k + 1) s = M.run k t := by
  simp [Host.Core.run, h]

theorem run_one_of_step (h : M.step s = .next t) : M.run 1 s = .next t := run_succ_of_step 0 h

end

/-- Settles O13, by induction on the input: each step that stays in LOAD consumes a word of it. -/
theorem loadingAlwaysEnds : Obligations.LoadingAlwaysEnds := by
  intro s hp
  induction hin : s.input generalizing s with
  | nil => exact ⟨1, le_rfl, _, run_one_of_step (step_of_input_nil hp hin), nofun⟩
  | cons w rest ih =>
    obtain ⟨t, ht⟩ := loadAndRunAlwaysTakeAStep s (.inl hp)
    by_cases hpt : t.phase = .load
    · obtain ⟨v, hv⟩ := input_of_stays_in_load hp ht hpt
      obtain ⟨k, hk, u, hu, hpu⟩ := ih t hpt (List.cons.inj (hv.symm.trans hin)).2
      exact ⟨k + 1, Nat.succ_le_succ hk, u, (run_succ_of_step k ht).trans hu, hpu⟩
    · exact ⟨1, Nat.succ_le_succ (Nat.zero_le _), t, run_one_of_step ht, hpt⟩

/-- `t` is where the loader hands over, having stored the image and the zero word from LDPTR of `s` on, with `data` left. -/
structure HandsOver (s : State) (image data : List Word) (t : State) : Prop where
  phase : t.phase = .run
  pc : t.pc = 0
  acc : t.acc = 0
  ldptr : t.ldptr.toNat = s.ldptr.toNat + image.length + 1
  input : t.input = data
  output : t.output = []
  memRead : ∀ i : WIdx, t.memRead i =
    if i.toNat < s.ldptr.toNat then s.memRead i else (image[i.toNat - s.ldptr.toNat]?).getD 0

section
variable {s t : State} {w : Word} {image data rest : List Word}

/-- The zero word ends the image: every word from LDPTR on is still 0. -/
theorem handsOver_zero (hs : s.Inv) (hp : s.phase = .load) (hl : s.ldptr.toNat < Config.memWords) :
    HandsOver s [] data ((loadWord s 0 data).setPhase .run) := by
  obtain ⟨hacc, hpc, -, hout, hzero⟩ := hs.loading hp
  refine ⟨rfl, hpc, hacc, advanced_ldptr_toNat hl, rfl, hout, fun i => ?_⟩
  rw [State.memRead_setPhase, memRead_loadWord hl, List.getElem?_nil, Option.getD_none]
  rcases lt_trichotomy i.toNat s.ldptr.toNat with h | h | h
  · rw [if_neg h.ne, if_pos h]
  · rw [if_pos h, if_neg h.not_lt]
  · rw [if_neg h.ne', if_neg h.not_gt, hzero i h.le]

/-- One more word before an image that is loaded after it. -/
theorem HandsOver.cons (hl : s.ldptr.toNat < Config.memWords) (h : HandsOver (loadWord s w rest) image data t) :
    HandsOver s (w :: image) data t where
  phase := h.phase
  pc := h.pc
  acc := h.acc
  ldptr := by
    have hnext := h.ldptr
    rw [State.setLdptr_ldptr, advanced_ldptr_toNat hl] at hnext
    rw [List.length_cons]
    omega
  input := h.input
  output := h.output
  memRead := fun i => by
    rw [h.memRead, memRead_loadWord hl, State.setLdptr_ldptr, advanced_ldptr_toNat hl]
    rcases lt_trichotomy i.toNat s.ldptr.toNat with hi | hi | hi
    · rw [if_pos (by omega), if_neg hi.ne, if_pos hi]
    · simp [hi]
    · have hsub : i.toNat - s.ldptr.toNat = i.toNat - (s.ldptr.toNat + 1) + 1 := by omega
      rw [if_neg (by omega), if_neg (by omega), hsub, List.getElem?_cons_succ]

/-- From any state that meets the invariant in LOAD, an image that fits is loaded word by word. -/
theorem run_handsOver (hs : s.Inv) (hp : s.phase = .load) (hin : s.input = image ++ 0 :: data) (hne : ∀ w ∈ image, w ≠ 0)
    (hfit : s.ldptr.toNat + image.length < Config.memWords) :
    ∃ t, core.run (image.length + 1) s = .next t ∧ HandsOver s image data t := by
  have hl : s.ldptr.toNat < Config.memWords := lt_of_le_of_lt (Nat.le_add_right _ _) hfit
  induction image generalizing s with
  | nil => exact ⟨_, run_one_of_step (step_of_input_cons hp hin hl), handsOver_zero hs hp hl⟩
  | cons w image ih =>
    obtain ⟨hw, hne⟩ := List.forall_mem_cons.1 hne
    have hstep := step_of_input_cons hp hin hl
    rw [if_neg hw] at hstep
    have hfit' : (loadWord s w (image ++ 0 :: data)).ldptr.toNat + image.length < Config.memWords := by
      rw [State.setLdptr_ldptr, advanced_ldptr_toNat hl]
      rw [List.length_cons] at hfit
      omega
    obtain ⟨t, hrun, ht⟩ := ih (inv_loadWord hs hp hl w (image ++ 0 :: data)) hp rfl hne hfit'
      (lt_of_le_of_lt (Nat.le_add_right _ _) hfit')
    exact ⟨t, (run_succ_of_step _ hstep).trans hrun, ht.cons hl⟩

end

/-- Settles O14: loading from the reset state, whose LDPTR is 0. -/
theorem loaderPlacesTheImageFromIndexZero : Obligations.LoaderPlacesTheImageFromIndexZero := by
  intro image data hne hlen
  have hzero : (State.resetWith (image ++ 0 :: data)).ldptr.toNat = 0 := rfl
  obtain ⟨t, hrun, h⟩ := run_handsOver (inv_resetWith _) rfl rfl hne (by rwa [hzero, Nat.zero_add])
  refine ⟨t, hrun, h.phase, h.pc, h.acc, ?_, h.input, h.output, fun i => ?_⟩
  · rw [h.ldptr, hzero, Nat.zero_add]
  · rw [h.memRead, hzero, if_neg (Nat.not_lt_zero _), Nat.sub_zero]

/-- Settles O8: the loader finds no input and hands over, and the word at index 0 is then the END that an empty memory reads. -/
theorem resetConstantHasEmptyInput : Obligations.ResetConstantHasEmptyInput := by
  have hend : step (State.reset.setPhase .run) = exec (decode 0) ((State.reset.setPhase .run).latch 0) :=
    step_of_word_at_pc (idx := 0) rfl rfl (Memory.read_nil 0)
  rw [decode_zero, exec_endOp] at hend
  exact ⟨rfl, step_of_input_nil rfl rfl, hend⟩

end Sys2Proof.Proofs
